-- ==== Sys2Proof/Word.lean ====
section
/-! DEFINITION. The data widths of the block: every port and every buffer cell carries one-byte values
(spec 10_state.md R32, 00_scope.md R18), a hex digit is a 4-bit value (R23 "Nibble"), and a frame's payload
container is eight bytes (10_state.md R46). -/

namespace Sys2Proof

/-- `UInt8` of the spec (R18). -/
abbrev Byte := BitVec 8

/-- `UInt4`: the value of one hex digit (40_hex_codec.md R120), also the bit-rate port (41_frame_encoder.md R140). -/
abbrev Nibble := BitVec 4

/-- The payload container `data`: 8 × `UInt8`, of which only the first `len` bytes are meaningful (10_state.md R46). -/
abbrev Payload := Vector Byte 8

end Sys2Proof
end

