-- ==== Sys2Proof/Config.lean ====
section
/-! DEFINITION. The implementation parameters of spec 00_scope.md section 3 (R8 to R17). The three the spec leaves open
for a model to vary (`P_CAPACITY`, `P_MIN_VALID`, `P_BEL_POLICY`; R8, R9, R16, 93_implementation_defined.md I3, I4)
are the fields of `Params`; the operations take a `Params` argument, and `Machine.params` in Machine/Params.lean is
the one the block runs with. The others are plain constants. -/

namespace Sys2Proof

/-- `P_BEL_POLICY ∈ {Abort, AsCR}` (00_scope.md R16; 90_conflicts.md C1). -/
inductive BelPolicy where
  | abort
  | asCr
  deriving DecidableEq, Repr

/-- The parameters that a model may vary (R8, R9, R16). -/
structure Params where
  /-- `P_CAPACITY`, the number of cells of the line buffer (R8). -/
  capacity : Nat
  /-- `P_MIN_VALID`, the shortest buffered line that is decoded (R9). -/
  minValid : Nat
  /-- `P_BEL_POLICY` (R16). -/
  belPolicy : BelPolicy
  deriving DecidableEq, Repr

namespace Config

/-- `P_STD_ID_MAX` (R10). -/
abbrev stdIdMax : Nat := 0x7FF

/-- `P_EXT_ID_MAX` (R11). -/
abbrev extIdMax : Nat := 0x1FFFFFFF

/-- `P_STD_ID_DIGITS` (R12). -/
abbrev stdIdDigits : Nat := 3

/-- `P_EXT_ID_DIGITS` (R12). -/
abbrev extIdDigits : Nat := 8

/-- `P_MAX_LEN` (R13). -/
abbrev maxLen : Nat := 8

/-- `P_CR`, carriage return (R14). -/
def cr : Byte := 0x0D

/-- `P_BEL`, bell (R14). -/
def bel : Byte := 0x07

/-- `P_BITRATE_COUNT` (R15): the bit-rate codes are `0` to `8`. -/
abbrev bitRateCount : Nat := 9

end Config

/-- The constraints of R17 on the parameters: a line the encoder can produce fits the buffer, and the shortest
data-frame line is long enough to be decoded. -/
abbrev Params.Ok (P : Params) : Prop :=
  1 + Config.extIdDigits + 1 + 2 * Config.maxLen ≤ P.capacity ∧ P.minValid ≤ 1 + Config.stdIdDigits + 1

end Sys2Proof
end

