-- ==== Sys2Proof/Syntax.lean ====
section
/-! DEFINITION. The value types the block's ports carry (spec 10_state.md R45 to R49, 00_scope.md R21,
60_exceptions.md R231 and R237), the raw values presented on the ports (41_frame_encoder.md R140, 42_reassembler.md
R160, 43_line_decoder.md R180, 30_encoding.md R103), and the instructions: one constructor of `Instr` for each row of
spec/opcode_table.json. -/

namespace Sys2Proof

/-- The class of an identifier, `kind(id) ∈ {Std, Ext}` (R45). -/
inductive Kind where
  | std
  | ext
  deriving DecidableEq, Repr

/-- An identifier (R45): the tag is the class, and the value is in the range of its class by its type, so that an
out-of-range identifier cannot be written down (R50). -/
inductive Identifier where
  | standard (v : Fin (Config.stdIdMax + 1))
  | extended (v : Fin (Config.extIdMax + 1))
  deriving DecidableEq, Repr

/-- A CAN frame (R46): identifier, payload length `0..8`, and the 8-byte container. -/
structure Frame where
  id : Identifier
  len : Fin (Config.maxLen + 1)
  data : Payload
  deriving DecidableEq, Repr

/-- The closed enumeration of nine bit rates, named by their digit (R49). -/
inductive BitRate where
  | rate0 | rate1 | rate2 | rate3 | rate4 | rate5 | rate6 | rate7 | rate8
  deriving DecidableEq, Repr

/-- The closed enumeration of command bytes (R48). -/
inductive Command where
  | setup
  | openCh
  | closeCh
  | transmitStandard
  | transmitExtended
  deriving DecidableEq, Repr

/-- The error names of 60_exceptions.md R231. -/
inductive ErrorCode where
  | malformedHex
  | identifierOutOfRange
  | invalidLength
  | notDataFrame
  | invalidBitRate
  deriving DecidableEq, Repr

/-- `Ok(v)` or `Err(code)` (00_scope.md R21). -/
inductive Result (α : Type) where
  | ok (v : α)
  | err (c : ErrorCode)
  deriving DecidableEq, Repr

/-- The response of an encode transaction: the output line, or an error and no bytes (R140). -/
abbrev Response := Result (List Byte)

/-- Why a line ended without being decoded (R47, R237). -/
inductive DiscardReason where
  | tooShort
  | overflowed
  | aborted
  deriving DecidableEq, Repr

/-- The output of one receive step (R47). -/
inductive Event where
  | none
  | frame (f : Frame)
  | decodeError (c : ErrorCode)
  | discard (r : DiscardReason)
  deriving DecidableEq, Repr

/-- A request on the transmit port, with the fields of the table of R140. -/
structure TxRequest where
  op : BitVec 3
  id : BitVec 32
  len : Nat
  data : Payload
  rate : Nibble
  deriving DecidableEq, Repr

/-- A raw value on one of the block's ports. `tx`: a transmit request (R140). `rx`: one byte on the receive port
(R160). `line`: a delimiter-stripped line on the Line Decoder's input (R180). `openChannel`: the pseudo-operation of a
host program (R103), whose operand is a `BitRate` (R212). -/
inductive PortWord where
  | tx (r : TxRequest)
  | rx (b : Byte)
  | line (L : List Byte)
  | openChannel (r : BitRate)
  deriving DecidableEq, Repr

/-- One thing the outside does to the block: a value presented on a port by a host agent, or the reset of
70_reset_and_hazards.md R270. The agent is kept so that two hosts on one receive port can be told apart (R279). -/
inductive HostOp where
  | port (agent : Nat) (w : PortWord)
  | reset
  deriving DecidableEq, Repr

/-- The instructions: one constructor per row of spec/opcode_table.json. The operands of a `DEC` instruction are the
bytes of its line after the command byte, which the constructor itself stands for; `decOther` carries the whole line. -/
inductive Instr where
  /-- ENC.t (R142). -/
  | encStd (id : BitVec 32) (len : Nat) (data : Payload)
  /-- ENC.T (R143). -/
  | encExt (id : BitVec 32) (len : Nat) (data : Payload)
  /-- ENC.S (R145). -/
  | encSetup (rate : Nibble)
  /-- ENC.O (R146). -/
  | encOpen
  /-- ENC.C (R147). -/
  | encClose
  /-- ENC.reserved (R150): op codes 5, 6 and 7. -/
  | encReserved (op : BitVec 3)
  /-- OPEN_CHANNEL (R103). -/
  | openChannel (r : BitRate)
  /-- RX.CR (R162). -/
  | rxCr
  /-- RX.BEL (R163). -/
  | rxBel
  /-- RX.other (R164, R165, R166). -/
  | rxOther (b : Byte)
  /-- DEC.t (R184): the line `'t' :: rest`. -/
  | decStd (rest : List Byte)
  /-- DEC.T (R185): the line `'T' :: rest`. -/
  | decExt (rest : List Byte)
  /-- DEC.S (R182): the line `'S' :: rest`. -/
  | decSetup (rest : List Byte)
  /-- DEC.O (R182): the line `'O' :: rest`. -/
  | decOpen (rest : List Byte)
  /-- DEC.C (R182): the line `'C' :: rest`. -/
  | decClose (rest : List Byte)
  /-- DEC.other (R183): a line whose first byte is no command byte, or the empty line (R180). -/
  | decOther (line : List Byte)
  deriving DecidableEq, Repr

end Sys2Proof
end

