-- ==== Sys2Proof/Decode.lean ====
section
/-! DEFINITION. The decoder: from a raw port value to an instruction, total on every value, and the encoder back.
Spec: 30_encoding.md R81, R94, R99, R100 (the codes and byte classes), 42_reassembler.md R161 and 43_line_decoder.md
R181 (the order of the classification). At the end stands the reading of the opcode table's words. -/

namespace Sys2Proof

/-- The byte of a command letter (R81). -/
def commandByte : Command → Byte
  | .setup => 0x53
  | .openCh => 0x4F
  | .closeCh => 0x43
  | .transmitStandard => 0x74
  | .transmitExtended => 0x54

/-- `commandOf` of R181: an exact match over the whole byte; `none` is `Unrecognized`. -/
def commandOf (b : Byte) : Option Command :=
  if b = 0x53 then some .setup
  else if b = 0x4F then some .openCh
  else if b = 0x43 then some .closeCh
  else if b = 0x74 then some .transmitStandard
  else if b = 0x54 then some .transmitExtended
  else none

/-- A transmit request, by its 3-bit op code (R99). The codes 5, 6 and 7 name no operation and are kept apart as
`encReserved`, which the machine refuses (R150). Fields an operation does not use are dropped (R140). -/
def decodeTx (r : TxRequest) : Instr :=
  if r.op = 0 then .encStd r.id r.len r.data
  else if r.op = 1 then .encExt r.id r.len r.data
  else if r.op = 2 then .encSetup r.rate
  else if r.op = 3 then .encOpen
  else if r.op = 4 then .encClose
  else .encReserved r.op

/-- A byte on the receive port, classified in the order of R161. -/
def decodeRx (b : Byte) : Instr :=
  if b = Config.cr then .rxCr
  else if b = Config.bel then .rxBel
  else .rxOther b

/-- A line on the Line Decoder's input, dispatched on its command byte (R180). The empty line has none and goes with
the unrecognised ones, to which R180 gives the same result. -/
def decodeLineWord : List Byte → Instr
  | [] => .decOther []
  | b :: rest =>
    match commandOf b with
    | some .transmitStandard => .decStd rest
    | some .transmitExtended => .decExt rest
    | some .setup => .decSetup rest
    | some .openCh => .decOpen rest
    | some .closeCh => .decClose rest
    | none => .decOther (b :: rest)

/-- The decoder: every port value selects exactly one instruction. -/
def decode : PortWord → Instr
  | .tx r => decodeTx r
  | .rx b => decodeRx b
  | .line L => decodeLineWord L
  | .openChannel r => .openChannel r

/-- A transmit request with op code `op` and every other field zero. -/
def bareRequest (op : BitVec 3) : TxRequest :=
  ⟨op, 0, 0, Vector.replicate 8 0, 0⟩

/-- The encoder: the port value of an instruction, with the fields its operation does not use at zero. -/
def encode : Instr → PortWord
  | .encStd id len data => .tx ⟨0, id, len, data, 0⟩
  | .encExt id len data => .tx ⟨1, id, len, data, 0⟩
  | .encSetup rate => .tx { bareRequest 2 with rate := rate }
  | .encOpen => .tx (bareRequest 3)
  | .encClose => .tx (bareRequest 4)
  | .encReserved op => .tx (bareRequest op)
  | .openChannel r => .openChannel r
  | .rxCr => .rx Config.cr
  | .rxBel => .rx Config.bel
  | .rxOther b => .rx b
  | .decStd rest => .line (commandByte .transmitStandard :: rest)
  | .decExt rest => .line (commandByte .transmitExtended :: rest)
  | .decSetup rest => .line (commandByte .setup :: rest)
  | .decOpen rest => .line (commandByte .openCh :: rest)
  | .decClose rest => .line (commandByte .closeCh :: rest)
  | .decOther line => .line line

/-- The port value that `encode` gives back: the fields a transmit operation does not use are zero (R140: "Fields an
operation does not use are ignored"). Every other port value is its own canonical form. -/
def canonicalWord : PortWord → PortWord
  | .tx r =>
    if r.op = 0 ∨ r.op = 1 then .tx { r with rate := 0 }
    else if r.op = 2 then .tx { bareRequest 2 with rate := r.rate }
    else .tx (bareRequest r.op)
  | w => w

/-- The `n` bytes of a number, its least significant byte first. -/
def bytesOfNat : Nat → Nat → List Byte
  | 0, _ => []
  | n + 1, w => BitVec.ofNat 8 w :: bytesOfNat n (w / 256)

/-- The port on which a one-byte word of the opcode table is presented. The table gives three ports one number space
without saying which port a number is for; the numbers it fixes are all different, so the number tells the port. The
codes 0 to 6 are the transmit op port, 0x07 and 0x0D the receive port, the five command letters a one-byte line, and
every other byte is a byte on the receive port. DESIGN CHOICE, notes/assumptions/5.md. -/
def oneByteWord (b : Byte) : PortWord :=
  if b.toNat < 7 then .tx (bareRequest (b.setWidth 3))
  else if (commandOf b).isSome then .line [b]
  else .rx b

/-- The port value of a table word of `nbits` bits: one byte goes to the port its number tells, and a longer word is a
line for the Line Decoder, its first byte in bits 7 to 0. No bits, or a number that does not fit, is no word.
DESIGN CHOICE, notes/assumptions/5.md. -/
def tableWord (nbits w : Nat) : Option PortWord :=
  match bytesOfNat ((nbits + 7) / 8) w with
  | [] => none
  | b :: rest =>
    if w < 2 ^ nbits then
      match rest with
      | [] => some (oneByteWord b)
      | _ :: _ => some (.line (b :: rest))
    else none

/-- The instruction the decoder reads from a word of spec/opcode_table.json. -/
def decodeTableWord (nbits w : Nat) : Option Instr :=
  (tableWord nbits w).map decode

end Sys2Proof
end

