-- ==== Sys2Proof/Machine/Params.lean ====
section
/-! DEFINITION. The parameter values the block runs with. -/

namespace Sys2Proof.Machine

/-- `P_CAPACITY = 28` (R8, the sum of the source's formula; decision D3), `P_MIN_VALID = 5` (R9) and
`P_BEL_POLICY = Abort` (R16, 90_conflicts.md C1; decision D6). notes/assumptions/9.md and 10.md. -/
def params : Params where
  capacity := 28
  minValid := 5
  belPolicy := .abort

end Sys2Proof.Machine
end

