-- ==== Sys2Proof/Machine/State.lean ====
section
/-! DEFINITION. The state of the machine, the reasons it stops, and the state after reset. The block's own state is the
triple `(buf, filled, desynced)` (spec 10_state.md R31). The other fields are the model's: what stands on the block's
output ports and what the outside has presented and the block has not yet taken. -/

namespace Sys2Proof.Machine

/-- The line buffer as a memory (R60): the written cells, as index and byte, the indices strictly rising. An index
that is not listed holds no value yet: the spec leaves the cells unspecified at reset and allows "a value that is
absent" (R43). notes/assumptions/7.md. -/
abbrev Memory := List Host.Cell

/-- Why the machine stops. Neither reason arises in a state that a run can reach: `Machine.State.Inv` in
Sys2Proof/Safety.lean rules both out, and every step keeps it. -/
inductive Fault where
  /-- A receive step touches a buffer index `≥ P_CAPACITY`, a cell that does not exist (R60). Raised by RX.other,
  and by RX.CR when it reads the line, in a state with `filled > P_CAPACITY` only. Safe: such a state breaks R33. -/
  | noSuchCell
  /-- RX.CR reads a cell of `buf[0 .. filled)` that nothing has written. Safe: in every reachable state each of these
  cells was written after the last reset or delimiter (R43). -/
  | unwrittenCell
  deriving DecidableEq, Repr

/-- Why the machine gives an input no meaning. -/
inductive Refusal where
  /-- An instruction without a meaning in this model, by its mnemonic. No arm raises it. Safe. -/
  | notModelled (mnemonic : String)
  /-- A transmit request with op code 5, 6 or 7: "A model refuses it and gives it no response" (R150). Raised by
  ENC.reserved. Safe. -/
  | reservedTransmitOp (op : BitVec 3)
  /-- A second host agent presents a value on a port of the block: "Drive one block instance from one thread only"
  (44_channel_interface.md R216 duty 2), and "A model refuses any run in which two host agents drive one instance's
  receive port" (R279). Raised by the step, before any instruction runs. Safe. -/
  | secondHost
  deriving DecidableEq, Repr

/-- The state. -/
structure State where
  /-- The line buffer (R32). -/
  buf : Memory
  /-- The count of buffered bytes, and the index the next byte is written at (R33). -/
  filled : Nat
  /-- The current line has overflowed and is to be discarded (R34). -/
  desynced : Bool
  /-- The model's: the responses of the latest transmit operation, in order (one for an encode transaction, two for
  OPEN_CHANNEL). notes/assumptions/2.md. -/
  txOut : List Response
  /-- The model's: the event of the latest receive step since reset. notes/assumptions/2.md. -/
  rxOut : Option Event
  /-- The model's: the result of the latest line presented to the Line Decoder. notes/assumptions/2.md. -/
  decOut : Option (Result Frame)
  /-- The model's: the host agent that has driven the block since reset. notes/assumptions/17.md. -/
  owner : Option Nat
  /-- The model's: what the outside has presented and the block has not yet taken, oldest first.
  notes/assumptions/1.md. -/
  pending : List HostOp
  deriving DecidableEq, Repr

/-- The state after reset (R43, R270): an empty buffer, `Accumulating`. The output ports show nothing and nothing has
been presented. notes/assumptions/25.md. -/
def State.reset : State where
  buf := []
  filled := 0
  desynced := false
  txOut := []
  rxOut := none
  decOut := none
  owner := none
  pending := []

end Sys2Proof.Machine
end

