-- ==== Sys2Proof/Machine/Ops.lean ====
section
/-! DEFINITION. The shared operations: sequencing of results, the accesses to the line buffer (spec 20_memory.md R60 to
R62), the outputs of a step, what a delimiter and the reset do to the state, and the taking of a presented value.

The block takes no exception: "There is no trap entry" and "no trap return" (60_exceptions.md R242, R243). `raise E` of
the spec's pseudocode is the result `Err(E)` (00_scope.md R20), here `Result.err`, and `Result.bind` passes it on. -/

namespace Sys2Proof

/-- Go on with the value, or pass the error on (R20: `raise E` ends the operation). -/
def Result.bind {α β : Type} (r : Result α) (k : α → Result β) : Result β :=
  match r with
  | .ok v => k v
  | .err c => .err c

/-- Apply a function that cannot fail to the value. -/
def Result.map {α β : Type} (f : α → β) (r : Result α) : Result β :=
  r.bind fun v => .ok (f v)

namespace Machine

/-- `MemRead(a, 1)` (R60): the byte of cell `a`, or nothing if no write has reached it. -/
def Memory.read : Memory → Nat → Option Byte
  | [], _ => none
  | (x, b) :: rest, a => if a = x then some b else Memory.read rest a

/-- `MemWrite(a, 1, b)` (R60): cell `a` holds `b`; every other cell is as it was. -/
def Memory.write : Memory → Nat → Byte → Memory
  | [], a, b => [(a, b)]
  | (x, c) :: rest, a, b =>
    if a < x then (a, b) :: (x, c) :: rest
    else if a = x then (a, b) :: rest
    else (x, c) :: Memory.write rest a b

/-- The canonical form: the indices strictly rise. An unlisted index reads as no value, which no entry can equal. -/
def Memory.wf : Memory → Bool
  | [] => true
  | [_] => true
  | (x, _) :: (y, c) :: rest => decide (x < y) && Memory.wf ((y, c) :: rest)

/-- Every listed cell exists: its index is below the capacity (R60). -/
def Memory.within (n : Nat) (m : Memory) : Bool :=
  m.all fun c => decide (c.1 < n)

/-- The bytes of the cells `i .. i + n - 1`, in order, or the reason the access stops (R60, R62). -/
def Memory.readCells (P : Params) (m : Memory) : Nat → Nat → Except Fault (List Byte)
  | _, 0 => .ok []
  | i, n + 1 =>
    if i < P.capacity then
      match m.read i with
      | some b =>
        match Memory.readCells P m (i + 1) n with
        | .ok bs => .ok (b :: bs)
        | .error f => .error f
      | none => .error .unwrittenCell
    else .error .noSuchCell

/-- The snapshot `L = buf[0 .. filled)` (R162, R169). -/
def State.line (P : Params) (s : State) : Except Fault (List Byte) :=
  s.buf.readCells P 0 s.filled

/-- The transmit port shows these responses (R140). -/
def State.emitTx (s : State) (rs : List Response) : State :=
  { s with txOut := rs }

/-- The receive port shows this event (R160). -/
def State.emitRx (s : State) (ev : Event) : State :=
  { s with rxOut := some ev }

/-- The Line Decoder's output shows this result (R180). -/
def State.emitDec (s : State) (r : Result Frame) : State :=
  { s with decOut := some r }

/-- The append of R164: `MemWrite(filled, 1, b)`, then `filled <- filled + 1`. -/
def State.append (s : State) (b : Byte) : State :=
  { s with buf := s.buf.write s.filled b, filled := s.filled + 1 }

/-- `filled <- 0` (R162, R163). The cells of `buf` keep their values (R169). -/
def State.emptyLine (s : State) : State :=
  { s with filled := 0 }

/-- The reset event of R270. `buf` is left unspecified, so every cell is absent again. "A reset that comes in the
middle of a line drops the partial line without any event": the receive port shows none. The transmit path is not
touched (R271). notes/assumptions/18.md. -/
def State.resetBlock (s : State) : State :=
  { s with buf := [], filled := 0, desynced := false, rxOut := none, owner := none }

/-- What is left to take after the presentation just taken. -/
def State.withPending (s : State) (ops : List HostOp) : State :=
  { s with pending := ops }

/-- Host agent `a` presents a value on a port. The first agent to do so is the host of the instance until the next
reset, and what another agent presents is not taken, whatever the port (44_channel_interface.md R216 duty 2, R279).
notes/assumptions/17.md. -/
def State.claim (s : State) (a : Nat) : Option State :=
  match s.owner with
  | none => some { s with owner := some a }
  | some o => if o = a then some s else none

end Machine
end Sys2Proof
end

