-- ==== Sys2Proof/Machine/HexCodec.lean ====
section
/-! DEFINITION. The Hex Codec (spec 40_hex_codec.md): combinational conversions between hex digits and values. -/

namespace Sys2Proof.Machine

/-- `digitToValue` (R120). -/
def digitToValue (b : Byte) : Result Nibble :=
  if 0x30 ≤ b ∧ b ≤ 0x39 then .ok ((b - 0x30).setWidth 4)
  else if 0x41 ≤ b ∧ b ≤ 0x46 then .ok ((b - 0x41 + 10).setWidth 4)
  else if 0x61 ≤ b ∧ b ≤ 0x66 then .ok ((b - 0x61 + 10).setWidth 4)
  else .err .malformedHex

/-- `byteFromHexPair` (R121): high nibble first. -/
def byteFromHexPair (h l : Byte) : Result Byte :=
  (digitToValue h).bind fun x =>
  (digitToValue l).bind fun y =>
  .ok ((x.setWidth 8 <<< 4) ||| y.setWidth 8)

/-- The accumulation of R122 and R123: each digit is shifted in from the right, and a bad digit ends it with no value
(R128). -/
def accumulateHex (w : Nat) : BitVec w → List Byte → Result (BitVec w)
  | acc, [] => .ok acc
  | acc, c :: cs =>
    (digitToValue c).bind fun d => accumulateHex w ((acc <<< 4) ||| d.setWidth w) cs

/-- `u16From3Hex` (R122), applied to slices of exactly 3 bytes. -/
def u16From3Hex (s : List Byte) : Result (BitVec 16) :=
  accumulateHex 16 0 s

/-- `u32From8Hex` (R123), applied to slices of exactly 8 bytes. -/
def u32From8Hex (s : List Byte) : Result (BitVec 32) :=
  accumulateHex 32 0 s

/-- `valueToHexDigit` (R124): always uppercase. -/
def valueToHexDigit (v : Nibble) : Byte :=
  if v ≤ 9 then 0x30 + v.setWidth 8 else 0x41 + (v.setWidth 8 - 10)

/-- `u16To3Hex` (R125): the bits 15 to 12 are not encoded. notes/assumptions/22.md. -/
def u16To3Hex (v : BitVec 16) : List Byte :=
  [valueToHexDigit (v.extractLsb' 8 4), valueToHexDigit (v.extractLsb' 4 4), valueToHexDigit (v.extractLsb' 0 4)]

/-- `u32To8Hex` (R126): digit `k` is the value of the bits `31-4k` down to `28-4k`. -/
def u32To8Hex (v : BitVec 32) : List Byte :=
  [28, 24, 20, 16, 12, 8, 4, 0].map fun lsb => valueToHexDigit (v.extractLsb' lsb 4)

/-- `bytesToHexPairs` (R127). -/
def bytesToHexPairs : List Byte → List Byte
  | [] => []
  | x :: xs => valueToHexDigit (x.extractLsb' 4 4) :: valueToHexDigit (x.extractLsb' 0 4) :: bytesToHexPairs xs

end Sys2Proof.Machine
end

