-- ==== Sys2Proof/Machine/Operands.lean ====
section
/-! DEFINITION. The operand forms: the identifier, length and payload fields of a data-frame line, in both directions
(spec 30_encoding.md section 3), the payload slice and bit-rate digit of a transmit request, and the numeric codes of
errors and discard reasons. -/

namespace Sys2Proof.Machine

/-- The number of identifier digits `W` of a class (R12, R89). -/
def idDigits : Kind → Nat
  | .std => Config.stdIdDigits
  | .ext => Config.extIdDigits

/-- The command letter of a class (R45: "The tag determines both the on-wire command letter and the fixed hex-digit
width"). -/
def frameCommand : Kind → Command
  | .std => .transmitStandard
  | .ext => .transmitExtended

/-- Construction of an identifier from a number (R50): out of range fails, no value is masked to fit. -/
def makeIdentifier : Kind → Nat → Result Identifier
  | .std, v => if h : v < Config.stdIdMax + 1 then .ok (.standard ⟨v, h⟩) else .err .identifierOutOfRange
  | .ext, v => if h : v < Config.extIdMax + 1 then .ok (.extended ⟨v, h⟩) else .err .identifierOutOfRange

/-- `kind(id)` (R45). -/
def identifierKind : Identifier → Kind
  | .standard _ => .std
  | .extended _ => .ext

/-- `value(id)` (R45). -/
def identifierValue : Identifier → Nat
  | .standard v => v.val
  | .extended v => v.val

/-- The 4-bit code of a bit rate (R49), as the rate port of R140 carries it. -/
def bitRateCode : BitRate → Nibble
  | .rate0 => 0
  | .rate1 => 1
  | .rate2 => 2
  | .rate3 => 3
  | .rate4 => 4
  | .rate5 => 5
  | .rate6 => 6
  | .rate7 => 7
  | .rate8 => 8

/-- The payload slice `data[0 .. len)` of a request (R140). The container's bytes from `len` on are not read (R152). -/
def payloadSlice (data : Payload) (len : Nat) : List Byte :=
  data.toList.take len

/-- The 8-byte container of a payload: zero beyond the bytes given (R46; decision D10, notes/assumptions/13.md). -/
def payloadOfBytes (xs : List Byte) : Payload :=
  #v[xs.getD 0 0, xs.getD 1 0, xs.getD 2 0, xs.getD 3 0, xs.getD 4 0, xs.getD 5 0, xs.getD 6 0, xs.getD 7 0]

/-- The payload bytes a reader of a frame may look at, `data[0 .. len)` (R46, 44_channel_interface.md R211). -/
def framePayload (f : Frame) : List Byte :=
  payloadSlice f.data f.len.val

/-- Equality of frames (R46): identifier, length and `data[0 .. len)`; the bytes beyond `len` do not count. -/
def frameSame (f g : Frame) : Bool :=
  decide (f.id = g.id) && decide (f.len = g.len) && decide (framePayload f = framePayload g)

/-- The bit rate a code stands for, in bit/s (R104). PRESUMED: the spec's table is general knowledge and informational,
and no operation reads it. notes/assumptions/29.md. -/
def nominalBitRate : BitRate → Nat
  | .rate0 => 10000
  | .rate1 => 20000
  | .rate2 => 50000
  | .rate3 => 100000
  | .rate4 => 125000
  | .rate5 => 250000
  | .rate6 => 500000
  | .rate7 => 800000
  | .rate8 => 1000000

/-- `fromHex_W` of 43_line_decoder.md section 3: the identifier digits of a class as a number. -/
def identifierFromHex : Kind → List Byte → Result Nat
  | .std, s => (u16From3Hex s).map BitVec.toNat
  | .ext, s => (u32From8Hex s).map BitVec.toNat

/-- The identifier field, positions `1 .. W` (R184, R185): truncation (R189), then the digits, then the range (R186),
in the order of R192. -/
def readIdentifier (k : Kind) (L : List Byte) : Result Identifier :=
  if L.length < 1 + idDigits k then .err .malformedHex
  else (identifierFromHex k ((L.drop 1).take (idDigits k))).bind fun v => makeIdentifier k v

/-- The length digit, position `1 + W` (R187): truncation (R189), then the digit, then the limit 8. -/
def readLength (k : Kind) (L : List Byte) : Result (Fin (Config.maxLen + 1)) :=
  match L[1 + idDigits k]? with
  | none => .err .malformedHex
  | some c =>
    (digitToValue c).bind fun d =>
      if h : d.toNat < Config.maxLen + 1 then .ok ⟨d.toNat, h⟩ else .err .invalidLength

/-- The first `d` hex pairs of a field, pair 0 first (R188); a missing byte is malformed (R189), and what follows the
last pair is not read (R190). -/
def readPairs : Nat → List Byte → Result (List Byte)
  | 0, _ => .ok []
  | d + 1, h :: l :: rest =>
    (byteFromHexPair h l).bind fun x =>
    (readPairs d rest).bind fun xs =>
    .ok (x :: xs)
  | _ + 1, _ => .err .malformedHex

/-- The payload field, from position `2 + W` on (R188), in its container. -/
def readPayload (k : Kind) (d : Nat) (L : List Byte) : Result Payload :=
  (readPairs d (L.drop (2 + idDigits k))).map payloadOfBytes

/-- The length digit on output (R90, R142). -/
def lengthDigit (len : Nat) : Byte :=
  valueToHexDigit (BitVec.ofNat 4 len)

/-- The numeric code of an error (R231; decision D11, notes/assumptions/28.md). -/
def errorNumber : ErrorCode → Nat
  | .malformedHex => 1
  | .identifierOutOfRange => 2
  | .invalidLength => 3
  | .notDataFrame => 4
  | .invalidBitRate => 5

/-- The numeric code of a discard reason (R237; decision D12, notes/assumptions/28.md). -/
def discardNumber : DiscardReason → Nat
  | .tooShort => 0
  | .overflowed => 1
  | .aborted => 2

end Sys2Proof.Machine
end

