-- ==== Sys2Proof/Machine/Encoder.lean ====
section
/-! DEFINITION. The Frame Encoder, the transmit path (spec 41_frame_encoder.md): the meanings of the ENC rows and of
OPEN_CHANNEL. An encode transaction is a function of its request alone (R149); its meaning only puts the response on
the transmit port. -/

namespace Sys2Proof.Machine

/-- The line of a data frame (R87, R88): command byte, identifier digits, length digit, payload pairs, CR. -/
def frameLine (k : Kind) (idHex : List Byte) (len : Nat) (p : List Byte) : List Byte :=
  [commandByte (frameCommand k)] ++ idHex ++ [lengthDigit len] ++ bytesToHexPairs p ++ [Config.cr]

/-- `EncStd` (R142): the identifier check, then the length check (R141, R144, R148), then the line. -/
def encodeStd (id : BitVec 32) (len : Nat) (data : Payload) : Response :=
  if Config.stdIdMax < id.toNat then .err .identifierOutOfRange
  else if Config.maxLen < len then .err .invalidLength
  else .ok (frameLine .std (u16To3Hex (id.setWidth 16)) len (payloadSlice data len))

/-- `EncExt` (R143), with the same checks. -/
def encodeExt (id : BitVec 32) (len : Nat) (data : Payload) : Response :=
  if Config.extIdMax < id.toNat then .err .identifierOutOfRange
  else if Config.maxLen < len then .err .invalidLength
  else .ok (frameLine .ext (u32To8Hex id) len (payloadSlice data len))

/-- `EncSetup` (R145). -/
def encodeSetup (rate : Nibble) : Response :=
  if 8 < rate then .err .invalidBitRate
  else .ok [commandByte .setup, 0x30 + rate.setWidth 8, Config.cr]

/-- `EncOpen` (R146). -/
def encodeOpen : Response :=
  .ok [commandByte .openCh, Config.cr]

/-- `EncClose` (R147). -/
def encodeClose : Response :=
  .ok [commandByte .closeCh, Config.cr]

/-- ENC.t (R142). -/
def execEncStd (id : BitVec 32) (len : Nat) (data : Payload) (s : State) : Host.Outcome State Fault Refusal :=
  .next (s.emitTx [encodeStd id len data])

/-- ENC.T (R143). -/
def execEncExt (id : BitVec 32) (len : Nat) (data : Payload) (s : State) : Host.Outcome State Fault Refusal :=
  .next (s.emitTx [encodeExt id len data])

/-- ENC.S (R145). -/
def execEncSetup (rate : Nibble) (s : State) : Host.Outcome State Fault Refusal :=
  .next (s.emitTx [encodeSetup rate])

/-- ENC.O (R146). -/
def execEncOpen (s : State) : Host.Outcome State Fault Refusal :=
  .next (s.emitTx [encodeOpen])

/-- ENC.C (R147). -/
def execEncClose (s : State) : Host.Outcome State Fault Refusal :=
  .next (s.emitTx [encodeClose])

/-- ENC.reserved (R150): "A model refuses it and gives it no response, rather than choosing an error code". -/
def execEncReserved (op : BitVec 3) (_s : State) : Host.Outcome State Fault Refusal :=
  .refused (.reservedTransmitOp op)

/-- OPEN_CHANNEL (R103): ENC.S followed by ENC.O, so the transmit port gives both responses, in that order.
notes/assumptions/19.md. -/
def execOpenChannel (r : BitRate) (s : State) : Host.Outcome State Fault Refusal :=
  .next (s.emitTx [encodeSetup (bitRateCode r), encodeOpen])

end Sys2Proof.Machine
end

