-- ==== Sys2Proof/Machine/Flags.lean ====
section
/-! DEFINITION. The one flag of the block, `desynced` (spec 10_state.md R34, R40). There are no condition codes. -/

namespace Sys2Proof.Machine

/-- The two states of the Reassembler that the flag names (R34). -/
inductive RxMode where
  | accumulating
  | discarding
  deriving DecidableEq, Repr

/-- `Accumulating` when `desynced = false`, `Discarding` when it is true (R34). -/
def State.rxMode (s : State) : RxMode :=
  if s.desynced then .discarding else .accumulating

/-- `desynced <- true`: the buffer overflows (R165). -/
def State.setDesynced (s : State) : State :=
  { s with desynced := true }

/-- `desynced <- false`: a delimiter resynchronises (R162, R163). -/
def State.clearDesynced (s : State) : State :=
  { s with desynced := false }

/-- What every delimiter does, whatever its event (R162, R163, R170 law 2): `filled <- 0`, `desynced <- false`, and the
event goes out. -/
def State.endLine (s : State) (ev : Event) : State :=
  (s.emptyLine.clearDesynced).emitRx ev

end Sys2Proof.Machine
end

