-- ==== Sys2Proof/Machine/LineDecoder.lean ====
section
/-! DEFINITION. The Line Decoder (spec 43_line_decoder.md): `decodeLine`, which RX.CR runs on the buffered line, and the
meanings of the DEC rows, which are the same functions on a line presented to the decoder's input
(notes/assumptions/4.md). Decoding writes no Reassembly State (R193). -/

namespace Sys2Proof.Machine

/-- `decodeData` (section 3 of the file), with the checks strictly in line order (R192). -/
def decodeData (k : Kind) (L : List Byte) : Result Frame :=
  (readIdentifier k L).bind fun id =>
  (readLength k L).bind fun len =>
  (readPayload k len.val L).bind fun data =>
  .ok ⟨id, len, data⟩

/-- DEC.t (R184). -/
def decodeStdLine (L : List Byte) : Result Frame :=
  decodeData .std L

/-- DEC.T (R185). -/
def decodeExtLine (L : List Byte) : Result Frame :=
  decodeData .ext L

/-- DEC.S, DEC.O, DEC.C and DEC.other (R182, R183): no data frame, and the rest of the line is not examined. -/
def rejectLine (_L : List Byte) : Result Frame :=
  .err .notDataFrame

/-- `decodeLine` (R180): dispatch on the command byte. The empty line, which no receive step hands over, is no data
frame either. -/
def decodeLine : List Byte → Result Frame
  | [] => .err .notDataFrame
  | b :: rest =>
    match commandOf b with
    | some .transmitStandard => decodeStdLine (b :: rest)
    | some .transmitExtended => decodeExtLine (b :: rest)
    | some .setup => rejectLine (b :: rest)
    | some .openCh => rejectLine (b :: rest)
    | some .closeCh => rejectLine (b :: rest)
    | none => rejectLine (b :: rest)

/-- DEC.t (R184). -/
def execDecStd (rest : List Byte) (s : State) : Host.Outcome State Fault Refusal :=
  .next (s.emitDec (decodeStdLine (commandByte .transmitStandard :: rest)))

/-- DEC.T (R185). -/
def execDecExt (rest : List Byte) (s : State) : Host.Outcome State Fault Refusal :=
  .next (s.emitDec (decodeExtLine (commandByte .transmitExtended :: rest)))

/-- DEC.S (R182). -/
def execDecSetup (rest : List Byte) (s : State) : Host.Outcome State Fault Refusal :=
  .next (s.emitDec (rejectLine (commandByte .setup :: rest)))

/-- DEC.O (R182). -/
def execDecOpen (rest : List Byte) (s : State) : Host.Outcome State Fault Refusal :=
  .next (s.emitDec (rejectLine (commandByte .openCh :: rest)))

/-- DEC.C (R182). -/
def execDecClose (rest : List Byte) (s : State) : Host.Outcome State Fault Refusal :=
  .next (s.emitDec (rejectLine (commandByte .closeCh :: rest)))

/-- DEC.other (R183), and the empty line (R180). -/
def execDecOther (line : List Byte) (s : State) : Host.Outcome State Fault Refusal :=
  .next (s.emitDec (rejectLine line))

end Sys2Proof.Machine
end

