-- ==== Sys2Proof/Machine/Reassembler.lean ====
section
/-! DEFINITION. The Frame Reassembler, the receive path (spec 42_reassembler.md): the meanings of the RX rows, over any
parameters, and at the block's own. -/

namespace Sys2Proof.Machine

/-- The event of a decoded line (R162). -/
def eventOfDecode : Result Frame → Event
  | .ok f => .frame f
  | .err c => .decodeError c

/-- RX.CR (R162). The decoder reads the snapshot of the line taken before the reset of `filled` (R169). -/
def rxCr (P : Params) (s : State) : Host.Outcome State Fault Refusal :=
  match s.rxMode with
  | .discarding => .next (s.endLine (.discard .overflowed))
  | .accumulating =>
    if s.filled < P.minValid then .next (s.endLine (.discard .tooShort))
    else
      match s.line P with
      | .ok L => .next (s.endLine (eventOfDecode (decodeLine L)))
      | .error f => .fault f

/-- RX.BEL (R163): the line is aborted in either state, or, with `P_BEL_POLICY = AsCR`, ended as at a CR (R16). -/
def rxBel (P : Params) (s : State) : Host.Outcome State Fault Refusal :=
  match P.belPolicy with
  | .abort => .next (s.endLine (.discard .aborted))
  | .asCr => rxCr P s

/-- RX.other (R161): dropped when discarding (R166), appended while there is room (R164), an overflow when the buffer
is full (R165). No rule gives a state with `filled > P_CAPACITY` a meaning: it has no cell at `filled`. -/
def rxOther (P : Params) (b : Byte) (s : State) : Host.Outcome State Fault Refusal :=
  match s.rxMode with
  | .discarding => .next (s.emitRx .none)
  | .accumulating =>
    if s.filled < P.capacity then .next ((s.append b).emitRx .none)
    else if s.filled = P.capacity then .next (s.setDesynced.emitRx .none)
    else .fault .noSuchCell

/-- RX.CR (R162). -/
def execRxCr (s : State) : Host.Outcome State Fault Refusal :=
  rxCr params s

/-- RX.BEL (R163). -/
def execRxBel (s : State) : Host.Outcome State Fault Refusal :=
  rxBel params s

/-- RX.other (R164, R165, R166). -/
def execRxOther (b : Byte) (s : State) : Host.Outcome State Fault Refusal :=
  rxOther params b s

end Sys2Proof.Machine
end

