-- ==== Sys2Proof/Machine/Dispatch.lean ====
section
/-! DEFINITION. The dispatch: one arm per row of spec/opcode_table.json. -/

namespace Sys2Proof.Machine

/-- The meaning of an instruction at a state. -/
def exec (i : Instr) (s : State) : Host.Outcome State Fault Refusal :=
  match i with
  | .encStd id len data => Sys2Proof.Machine.execEncStd id len data s
  | .encExt id len data => Sys2Proof.Machine.execEncExt id len data s
  | .encSetup rate => Sys2Proof.Machine.execEncSetup rate s
  | .encOpen => Sys2Proof.Machine.execEncOpen s
  | .encClose => Sys2Proof.Machine.execEncClose s
  | .encReserved op => Sys2Proof.Machine.execEncReserved op s
  | .openChannel r => Sys2Proof.Machine.execOpenChannel r s
  | .rxCr => Sys2Proof.Machine.execRxCr s
  | .rxBel => Sys2Proof.Machine.execRxBel s
  | .rxOther b => Sys2Proof.Machine.execRxOther b s
  | .decStd rest => Sys2Proof.Machine.execDecStd rest s
  | .decExt rest => Sys2Proof.Machine.execDecExt rest s
  | .decSetup rest => Sys2Proof.Machine.execDecSetup rest s
  | .decOpen rest => Sys2Proof.Machine.execDecOpen rest s
  | .decClose rest => Sys2Proof.Machine.execDecClose rest s
  | .decOther line => Sys2Proof.Machine.execDecOther line s

end Sys2Proof.Machine
end

