-- ==== Sys2Proof/Machine/Step.lean ====
section
/-! DEFINITION. One step of the machine: it takes the oldest thing the outside has presented. The block "starts no
activity by itself: every step is caused by a host request or an input byte" (spec 10_state.md R30) and "does nothing
between inputs" (60_exceptions.md R250). -/

namespace Sys2Proof.Machine

/-- One step. With nothing presented the block stays as it is. A reset does what R270 says. A value presented on a port
is decoded and its instruction run, unless a second host presents it (R216 duty 2, R279).
notes/assumptions/1.md and 17.md. -/
def step (s : State) : Host.Outcome State Fault Refusal :=
  match s.pending with
  | [] => .next s
  | .reset :: rest => .next (s.withPending rest).resetBlock
  | .port a w :: rest =>
    match (s.withPending rest).claim a with
    | none => .refused .secondHost
    | some t => exec (decode w) t

/-- `s` with the port value of a table word presented before everything else, by the host of the instance (by
agent 0 where it has none), so that the next step runs that instruction. A number that is no word changes nothing.
notes/assumptions/6.md. -/
def State.withFetchWord (s : State) (nbits w : Nat) : State :=
  match tableWord nbits w with
  | none => s
  | some p => s.withPending (.port (s.owner.getD 0) p :: s.pending)

end Sys2Proof.Machine
end

