-- ==== Sys2Proof/Machine/Channel.lean ====
section
/-! DEFINITION. The block's ports as the host drives them (spec 44_channel_interface.md): the receive step as a function
of state and byte (42_reassembler.md R160), a string of bytes fed to it (30_encoding.md R102), and the four host
operations `open`, `close`, `write` and `read` (R212 to R215) over a transport. The transport is outside the block
(00_scope.md R5) and appears as R210 models it: a script of what each of its reads and writes will answer. -/

namespace Sys2Proof.Machine

/-- `rxStep : State × UInt8 -> State × Event` (R160): the byte is decoded and its instruction run, and the event is what
the receive port then shows. DESIGN CHOICE: the byte is taken as presented by the one host of the instance, so `rxStep`
names no agent and neither reads nor sets `owner`. notes/assumptions/30.md. -/
def rxStep (b : Byte) (s : State) : Host.Outcome (State × Event) Fault Refusal :=
  match exec (decode (.rx b)) s with
  | .next t => .next (t, t.rxOut.getD .none)
  | .fault f => .fault f
  | .refused r => .refused r

/-- `RX "<string>"` (R102): one receive step per byte, in order, with the events of the steps. -/
def rxFeed : List Byte → State → Host.Outcome (State × List Event) Fault Refusal
  | [], s => .next (s, [])
  | b :: bs, s =>
    match rxStep b s with
    | .next (t, ev) =>
      match rxFeed bs t with
      | .next (u, evs) => .next (u, ev :: evs)
      | .fault f => .fault f
      | .refused r => .refused r
    | .fault f => .fault f
    | .refused r => .refused r

/-- What one transport read answers (R210). The error is the transport's own and stays opaque. -/
inductive TransportRead where
  | byte (b : Byte)
  | noData
  | ioError (e : Nat)
  deriving DecidableEq, Repr

/-- What one transport write answers (R210): it accepts the first `k` of the bytes offered, or fails. -/
inductive TransportWrite where
  | accept (k : Nat)
  | ioError (e : Nat)
  deriving DecidableEq, Repr

/-- The transport as the host sees it: the answers to its coming reads and writes, and the bytes it has accepted. A
script that has run out answers a read with no data and accepts a write whole. notes/assumptions/23.md. -/
structure Transport where
  reads : List TransportRead
  writes : List TransportWrite
  sent : List Byte
  deriving DecidableEq, Repr

/-- A channel: one block instance and its transport (R51, R216). Its operations are those of the one host of the
instance (R216 duty 2): they name no agent and neither read nor set `owner`. DESIGN CHOICE, notes/assumptions/30.md. -/
structure Channel where
  block : State
  transport : Transport
  deriving DecidableEq, Repr

/-- The host-level failures (60_exceptions.md R239) and the block's own (R231). -/
inductive HostError where
  | wouldBlock
  | io (e : Nat)
  | code (c : ErrorCode)
  deriving DecidableEq, Repr

/-- The result of a host operation. -/
inductive HostResult (α : Type) where
  | ok (v : α)
  | err (e : HostError)
  deriving DecidableEq, Repr

/-- The write loop of R214: offer what is left until the whole line is accepted or a write fails (decision D20). Gives
the bytes the transport accepted, the answers left, and the error if there is one. -/
def sendBytes : List TransportWrite → List Byte → List Byte × List TransportWrite × Option Nat
  | ws, [] => ([], ws, none)
  | [], b :: bs => (b :: bs, [], none)
  | .ioError e :: ws, _ :: _ => ([], ws, some e)
  | .accept k :: ws, b :: bs =>
    match sendBytes ws ((b :: bs).drop k) with
    | (sent, ws', e) => ((b :: bs).take k ++ sent, ws', e)

/-- Offer one line to the transport (R214). -/
def Transport.send (t : Transport) (line : List Byte) : Transport × Option Nat :=
  match sendBytes t.writes line with
  | (sent, ws, e) => ({ t with writes := ws, sent := t.sent ++ sent }, e)

/-- Write the lines of a list of responses, each completely before the next (R216 duty 4); an error response or a
transport error ends it. The value is the number of bytes of the lines written. -/
def Channel.sendResponses : List Response → Channel → Channel × HostResult Nat
  | [], c => (c, .ok 0)
  | .err e :: _, c => (c, .err (.code e))
  | .ok line :: rest, c =>
    match c.transport.send line with
    | (t, some e) => ({ c with transport := t }, .err (.io e))
    | (t, none) =>
      match Channel.sendResponses rest { c with transport := t } with
      | (c', .ok n) => (c', .ok (line.length + n))
      | (c', .err e) => (c', .err e)

/-- Run a transmit operation on the block and write its responses. -/
def Channel.transmit (i : Instr) (c : Channel) : Host.Outcome (Channel × HostResult Nat) Fault Refusal :=
  match exec i c.block with
  | .next s => .next (Channel.sendResponses s.txOut { c with block := s })
  | .fault f => .fault f
  | .refused r => .refused r

/-- `open(r)` (R212). -/
def Channel.openAt (r : BitRate) (c : Channel) : Host.Outcome (Channel × HostResult Nat) Fault Refusal :=
  c.transmit (.openChannel r)

/-- `close()` (R213). -/
def Channel.close (c : Channel) : Host.Outcome (Channel × HostResult Nat) Fault Refusal :=
  c.transmit .encClose

/-- The encode request of `write(id, payload)` (R214): the operation is chosen by the identifier's class. -/
def writeRequest (id : Identifier) (payload : List Byte) : Instr :=
  match identifierKind id with
  | .std => .encStd (BitVec.ofNat 32 (identifierValue id)) payload.length (payloadOfBytes payload)
  | .ext => .encExt (BitVec.ofNat 32 (identifierValue id)) payload.length (payloadOfBytes payload)

/-- `write(id, payload)` (R214). -/
def Channel.write (id : Identifier) (payload : List Byte) (c : Channel) :
    Host.Outcome (Channel × HostResult Nat) Fault Refusal :=
  c.transmit (writeRequest id payload)

/-- The loop of `read()` (R215), over the answers of the transport: one byte per receive step, until a line ends or the
transport has no byte. A decoded-and-rejected line gives its error (C2, decision D17) and a discarded line would-block
(decision D18). Answers after the one that ends the read stay for the next (decision D19). -/
def readLoop : List TransportRead → State →
    Host.Outcome (State × List TransportRead × HostResult Frame) Fault Refusal
  | [], s => .next (s, [], .err .wouldBlock)
  | .noData :: rest, s => .next (s, rest, .err .wouldBlock)
  | .ioError e :: rest, s => .next (s, rest, .err (.io e))
  | .byte b :: rest, s =>
    match rxStep b s with
    | .next (t, .none) => readLoop rest t
    | .next (t, .frame f) => .next (t, rest, .ok f)
    | .next (t, .decodeError c) => .next (t, rest, .err (.code c))
    | .next (t, .discard _) => .next (t, rest, .err .wouldBlock)
    | .fault f => .fault f
    | .refused r => .refused r

/-- `read()` (R215). -/
def Channel.read (c : Channel) : Host.Outcome (Channel × HostResult Frame) Fault Refusal :=
  match readLoop c.transport.reads c.block with
  | .next (s, rest, r) => .next ({ block := s, transport := { c.transport with reads := rest } }, r)
  | .fault f => .fault f
  | .refused r => .refused r

/-- `read()` called `n` times, whatever each call returns (R217: "call `read()` again after any result"), with the
results in order. -/
def Channel.readTimes : Nat → Channel → Host.Outcome (Channel × List (HostResult Frame)) Fault Refusal
  | 0, c => .next (c, [])
  | n + 1, c =>
    match c.read with
    | .next (d, r) =>
      match Channel.readTimes n d with
      | .next (e, rs) => .next (e, r :: rs)
      | .fault f => .fault f
      | .refused q => .refused q
    | .fault f => .fault f
    | .refused q => .refused q

end Sys2Proof.Machine
end

