-- ==== Sys2Proof/Safety.lean ====
section
/-! DEFINITION. What counts as a safe state and a safe step, in the terms the statements use. -/

namespace Sys2Proof.Machine

/-- A byte that may stand in a buffered line: neither delimiter (10_state.md R36). -/
abbrev LineByte (b : Byte) : Prop :=
  b ≠ Config.cr ∧ b ≠ Config.bel

/-- The invariant of the receive path: the buffer is canonical and within its capacity (R60), `filled ≤ P_CAPACITY`
(R33), `desynced` only at a full buffer (R35), and every cell of `buf[0 .. filled)` is written (R43) and holds no
delimiter (R36). -/
structure State.Inv (P : Params) (s : State) : Prop where
  canonical : s.buf.wf = true
  within : s.buf.within P.capacity = true
  bounded : s.filled ≤ P.capacity
  full : s.desynced = true → s.filled = P.capacity
  written : ∀ i, i < s.filled → ∃ b, s.buf.read i = some b ∧ LineByte b

/-- A step that does not stop with a fault. -/
def SafeStep (s : State) : Prop :=
  ∀ f, step s ≠ .fault f

/-- The block's own state, without what stands on the ports: the triple of R31. -/
def State.reassembly (s : State) : Memory × Nat × Bool :=
  (s.buf, s.filled, s.desynced)

/-- The instructions of the transmit path (30_encoding.md R99, R103), the reserved op codes aside. -/
def transmits : Instr → Bool
  | .encStd _ _ _ | .encExt _ _ _ | .encSetup _ | .encOpen | .encClose | .openChannel _ => true
  | .encReserved _ | .rxCr | .rxBel | .rxOther _ => false
  | .decStd _ | .decExt _ | .decSetup _ | .decOpen _ | .decClose _ | .decOther _ => false

/-- The instructions of the receive path (R100). -/
def receives : Instr → Bool
  | .rxCr | .rxBel | .rxOther _ => true
  | .encStd _ _ _ | .encExt _ _ _ | .encSetup _ | .encOpen | .encClose | .openChannel _ | .encReserved _ => false
  | .decStd _ | .decExt _ | .decSetup _ | .decOpen _ | .decClose _ | .decOther _ => false

/-- The instructions of the Line Decoder (43_line_decoder.md R180). -/
def decodesLine : Instr → Bool
  | .decStd _ | .decExt _ | .decSetup _ | .decOpen _ | .decClose _ | .decOther _ => true
  | .encStd _ _ _ | .encExt _ _ _ | .encSetup _ | .encOpen | .encClose | .openChannel _ | .encReserved _ => false
  | .rxCr | .rxBel | .rxOther _ => false

end Sys2Proof.Machine
end

