-- ==== Sys2Proof/WellFormed.lean ====
section
/-! DEFINITION. Which terms of `Instr` are instructions of the block: the operand limits that a row of
spec/opcode_table.json puts on the CODE of an instruction. A limit the operation itself checks and answers with an
error (an identifier or a length out of range, R141, R144; a rate above 8, R145) is no limit here: such a request is
an instruction, and its response is the error. -/

namespace Sys2Proof

/-- The check. `ENC.reserved` stands for the op codes 5 to 7 only (R99), `RX.other` for every byte but the two
delimiters (R100), and `DEC.other` for a line whose first byte, if it has one, is no command byte (R94, R183). -/
def Instr.wellFormed : Instr → Bool
  | .encStd _ _ _ => true
  | .encExt _ _ _ => true
  | .encSetup _ => true
  | .encOpen => true
  | .encClose => true
  | .encReserved op => decide (5 ≤ op.toNat)
  | .openChannel _ => true
  | .rxCr => true
  | .rxBel => true
  | .rxOther b => decide (b ≠ Config.cr) && decide (b ≠ Config.bel)
  | .decStd _ => true
  | .decExt _ => true
  | .decSetup _ => true
  | .decOpen _ => true
  | .decClose _ => true
  | .decOther [] => true
  | .decOther (b :: _) => (commandOf b).isNone

end Sys2Proof
end

