-- ==== Sys2Proof/Certificates/Slice0/Obligations.lean ====
section
/-! DEFINITION. The statements for the provers. The names under `Sys2Proof.Spec` write the spec's tables and line formats
down once more, independently of the operations of the machine, so that a statement holds the model against the spec and
not against itself. -/

namespace Sys2Proof.Spec

open Sys2Proof.Machine

/-- The "emitted byte" column of 30_encoding.md R83: the byte of the digit of value `v < 16`. -/
def upperDigits : List Byte :=
  [0x30, 0x31, 0x32, 0x33, 0x34, 0x35, 0x36, 0x37, 0x38, 0x39, 0x41, 0x42, 0x43, 0x44, 0x45, 0x46]

/-- The lowercase bytes R83 also accepts, for the values 10 to 15. -/
def lowerDigits : List Byte :=
  [0x61, 0x62, 0x63, 0x64, 0x65, 0x66]

/-- The emitted byte of a digit value (R83). -/
def hexUpper (v : Nat) : Byte :=
  upperDigits.getD v 0

/-- The value of a byte by the table of R83, none for a byte that is no hex digit. -/
def hexValue (b : Byte) : Option Nat :=
  (upperDigits.idxOf? b).or ((lowerDigits.idxOf? b).map fun i => 10 + i)

/-- The digit value at position `i` of a line; none where the line has no such position or the byte is no digit. -/
def digitAt (L : List Byte) (i : Nat) : Option Nat :=
  L[i]?.bind hexValue

/-- The value of a field of digits, most significant first: the sum of R64. -/
def fieldValue : List Nat → Nat
  | [] => 0
  | d :: ds => d * 16 ^ ds.length + fieldValue ds

/-- The identifier width of a class (R12). -/
def width : Kind → Nat
  | .std => 3
  | .ext => 8

/-- The largest identifier of a class (R10, R11). -/
def maxId : Kind → Nat
  | .std => 0x7FF
  | .ext => 0x1FFFFFFF

/-- The command byte of a class's lines (R81). -/
def letter : Kind → Byte
  | .std => 0x74
  | .ext => 0x54

/-- The encode instruction of a class. -/
def encodeInstr : Kind → BitVec 32 → Nat → Payload → Instr
  | .std, id, len, data => .encStd id len data
  | .ext, id, len, data => .encExt id len data

/-- The tables of R87 and R88: the byte at every position of the line of a data frame. -/
def IsFrameLine (k : Kind) (id len : Nat) (data : Payload) (l : List Byte) : Prop :=
  l.length = 3 + width k + 2 * len ∧
  l[0]? = some (letter k) ∧
  (∀ j, j < width k → l[1 + j]? = some (hexUpper (id / 16 ^ (width k - 1 - j) % 16))) ∧
  l[1 + width k]? = some (hexUpper len) ∧
  (∀ i (h : i < 8), i < len →
    l[2 + width k + 2 * i]? = some (hexUpper (data[i].toNat / 16)) ∧
    l[3 + width k + 2 * i]? = some (hexUpper (data[i].toNat % 16))) ∧
  l[2 + width k + 2 * len]? = some 0x0D

/-- Every identifier position of the line holds a hex digit. -/
def IdDigits (k : Kind) (L : List Byte) : Prop :=
  ∀ j, j < width k → (digitAt L (1 + j)).isSome = true

/-- The value of the identifier positions. -/
def idValue (k : Kind) (L : List Byte) : Nat :=
  fieldValue ((List.range (width k)).map fun j => (digitAt L (1 + j)).getD 0)

/-- Each of the `2d` payload positions holds a hex digit. -/
def PayloadDigits (k : Kind) (d : Nat) (L : List Byte) : Prop :=
  ∀ j, j < 2 * d → (digitAt L (2 + width k + j)).isSome = true

/-- The frame that a line with digits at all its positions spells, with zeros beyond the payload (R46). -/
def IsFrameOf (k : Kind) (d : Nat) (L : List Byte) (f : Frame) : Prop :=
  identifierKind f.id = k ∧ identifierValue f.id = idValue k L ∧ f.len.val = d ∧
  ∀ i (h : i < 8),
    (i < d → f.data[i].toNat =
      16 * (digitAt L (2 + width k + 2 * i)).getD 0 + (digitAt L (3 + width k + 2 * i)).getD 0) ∧
    (d ≤ i → f.data[i] = 0)

/-- The rules of 43_line_decoder.md sections 3 and 4 for a `t` or `T` line, the checks in the order of R192: each fault
with the error it reports when every earlier check has passed, and the frame when all have. -/
def DataLineResult (k : Kind) (L : List Byte) (r : Result Frame) : Prop :=
  (¬ IdDigits k L → r = .err .malformedHex) ∧
  (IdDigits k L → maxId k < idValue k L → r = .err .identifierOutOfRange) ∧
  (IdDigits k L → idValue k L ≤ maxId k → digitAt L (1 + width k) = none → r = .err .malformedHex) ∧
  ∀ d, IdDigits k L → idValue k L ≤ maxId k → digitAt L (1 + width k) = some d →
    (8 < d → r = .err .invalidLength) ∧
    (d ≤ 8 → ¬ PayloadDigits k d L → r = .err .malformedHex) ∧
    (d ≤ 8 → PayloadDigits k d L → ∃ f, r = .ok f ∧ IsFrameOf k d L f)

/-- A frame carries this identifier and this payload: frame equality as R46 has it, on `data[0 .. len)` only. -/
def Carries (f : Frame) (k : Kind) (id len : Nat) (data : Payload) : Prop :=
  identifierKind f.id = k ∧ identifierValue f.id = id ∧ f.len.val = len ∧
  ∀ i (h : i < 8), i < len → f.data[i] = data[i]

/-- The digit of a bit rate: the nine rates are named by their digit (R49), which OPEN_CHANNEL puts on the wire (R103). -/
def rateDigit : BitRate → Nat
  | .rate0 => 0
  | .rate1 => 1
  | .rate2 => 2
  | .rate3 => 3
  | .rate4 => 4
  | .rate5 => 5
  | .rate6 => 6
  | .rate7 => 7
  | .rate8 => 8

/-- The Setup line of a bit rate (R84). -/
def setupLine (r : BitRate) : List Byte :=
  [0x53, BitVec.ofNat 8 (0x30 + rateDigit r), 0x0D]

/-- The event that reports a decoded line (R162). -/
def lineEvent : Result Frame → Event
  | .ok f => .frame f
  | .err c => .decodeError c

/-- The line `L` is buffered: it is `buf[0 .. filled)` (R162). -/
def Buffered (s : State) (L : List Byte) : Prop :=
  L.length = s.filled ∧ ∀ i (h : i < L.length), s.buf.read i = some L[i]

/-- The bytes among the answers of a transport to its reads, in order (R210). -/
def streamBytes : List TransportRead → List Byte
  | [] => []
  | .byte b :: rest => b :: streamBytes rest
  | .noData :: rest => streamBytes rest
  | .ioError _ :: rest => streamBytes rest

/-- A host result that reports a line: a frame or a decode error, and neither would-block nor a transport error. -/
def reportsLine : HostResult Frame → Bool
  | .ok _ => true
  | .err (.code _) => true
  | .err .wouldBlock => false
  | .err (.io _) => false

/-- The host result that an event gives, for an event that reports a line (R215). -/
def lineResult : Event → Option (HostResult Frame)
  | .none => Option.none
  | .frame f => some (.ok f)
  | .decodeError c => some (.err (.code c))
  | .discard _ => Option.none

/-- A channel with these coming answers to its reads. -/
def withReads (c : Channel) (reads : List TransportRead) : Channel :=
  { c with transport := { c.transport with reads := reads } }

/-- The receive path is between lines: `filled = 0`, `desynced = false` (R170 law 2). -/
def BetweenLines (s : State) : Prop :=
  s.filled = 0 ∧ s.desynced = false

/-- The bytes a line may hold (R36). -/
def LineBytes (L : List Byte) : Prop :=
  ∀ b, b ∈ L → LineByte b

/-- Every coming write of the transport accepts some bytes. -/
def NoWriteError (t : Transport) : Prop :=
  ∀ w, w ∈ t.writes → ∃ k, w = .accept k

end Sys2Proof.Spec

open Sys2Proof Sys2Proof.Machine Sys2Proof.Spec

/-! ### Encoding and decoding -/

/-- Words written out from the spec's tables (30_encoding.md R81, R99, R100 and spec/opcode_table.json) decode to the
instructions they stand for. The one number space of the table words is the model's choice, notes/assumptions/5.md. -/
def Obligations.SpecWordsDecodeAsTheTablesSay : Prop :=
  decode (.tx ⟨0b000#3, 0x123, 4, #v[0x0B, 0x0E, 0x0E, 0x0F, 0, 0, 0, 0], 6⟩) =
    .encStd 0x123 4 #v[0x0B, 0x0E, 0x0E, 0x0F, 0, 0, 0, 0] ∧
  decode (.tx ⟨0b010#3, 0x123, 4, #v[0, 0, 0, 0, 0, 0, 0, 0], 6⟩) = .encSetup 6 ∧
  decode (.tx ⟨0b100#3, 0, 0, #v[0, 0, 0, 0, 0, 0, 0, 0], 0⟩) = .encClose ∧
  decode (.rx 0b00001101#8) = .rxCr ∧
  decode (.rx 0b00000111#8) = .rxBel ∧
  decode (.rx 0b00001010#8) = .rxOther 0x0A ∧
  decode (.line [0b01110100#8, 0x31, 0x32, 0x33, 0x30]) = .decStd [0x31, 0x32, 0x33, 0x30] ∧
  decode (.line [0b01010011#8, 0x36]) = .decSetup [0x36] ∧
  decode (.line [0b01110010#8, 0x31]) = .decOther [0x72, 0x31] ∧
  decodeTableWord 8 0x01 = some (.encExt 0 0 #v[0, 0, 0, 0, 0, 0, 0, 0]) ∧
  decodeTableWord 8 0x0D = some .rxCr ∧
  decodeTableWord 8 0x54 = some (.decExt [])

/-- Decoding and encoding agree (30_encoding.md section 5, 41_frame_encoder.md R140): a well-formed instruction comes
back from its port value; every port value decodes to a well-formed instruction; and encoding what was decoded gives
the port value back, with the transmit fields that the operation ignores at zero. -/
def Obligations.DecodeAndEncodeAgree : Prop :=
  (∀ i : Instr, i.wellFormed = true → decode (encode i) = i) ∧
  (∀ w : PortWord, (decode w).wellFormed = true) ∧
  (∀ w : PortWord, encode (decode w) = canonicalWord w)

/-- R100: each byte on the receive port selects exactly one receive operation. -/
def Obligations.EachReceiveByteSelectsOneOperation : Prop :=
  decode (.rx 0x0D) = .rxCr ∧ decode (.rx 0x07) = .rxBel ∧
  ∀ b : Byte, b ≠ 0x0D → b ≠ 0x07 → decode (.rx b) = .rxOther b

/-- R99: the transmit op codes. The codes 5, 6 and 7 name no operation and are kept apart. -/
def Obligations.EachTransmitCodeSelectsItsOperation : Prop :=
  ∀ r : TxRequest,
    (r.op = 0 → decode (.tx r) = .encStd r.id r.len r.data) ∧
    (r.op = 1 → decode (.tx r) = .encExt r.id r.len r.data) ∧
    (r.op = 2 → decode (.tx r) = .encSetup r.rate) ∧
    (r.op = 3 → decode (.tx r) = .encOpen) ∧
    (r.op = 4 → decode (.tx r) = .encClose) ∧
    (4 < r.op → decode (.tx r) = .encReserved r.op)

/-- R181: the command byte is matched exactly, over the whole byte. -/
def Obligations.CommandBytesAreMatchedExactly : Prop :=
  ∀ b : Byte,
    (commandOf b = some .setup ↔ b = 0x53) ∧
    (commandOf b = some .openCh ↔ b = 0x4F) ∧
    (commandOf b = some .closeCh ↔ b = 0x43) ∧
    (commandOf b = some .transmitStandard ↔ b = 0x74) ∧
    (commandOf b = some .transmitExtended ↔ b = 0x54) ∧
    (commandOf b = none ↔ b ≠ 0x53 ∧ b ≠ 0x4F ∧ b ≠ 0x43 ∧ b ≠ 0x74 ∧ b ≠ 0x54)

/-! ### The step and the reset -/

/-- A step runs the decoded instruction on the state with the presentation taken, for a presentation by the host of the
instance or by the first agent, which then is the host. The queue of presentations and the host's number are the
model's (notes/assumptions/1.md, 17.md). -/
def Obligations.StepRunsTheDecodedInstruction : Prop :=
  ∀ (s : State) (a : Nat) (w : PortWord) (rest : List HostOp), s.pending = .port a w :: rest →
    (s.owner = none ∨ s.owner = some a) → step s = exec (decode w) { s with pending := rest, owner := some a }

/-- A table word placed with `withFetchWord` is the instruction the very next step runs (notes/assumptions/6.md). -/
def Obligations.FetchedTableWordRunsNext : Prop :=
  ∀ (s : State) (nbits w : Nat) (i : Instr), decodeTableWord nbits w = some i →
    step (s.withFetchWord nbits w) = exec i { s with owner := some (s.owner.getD 0) }

/-- R43: the reset values the spec states. Nothing is claimed of the cells of `buf`. -/
def Obligations.ResetIsAccumulatingAndEmpty : Prop :=
  State.reset.filled = 0 ∧ State.reset.desynced = false ∧ State.reset.rxMode = .accumulating

/-- R270, R271: the reset event empties the line and resynchronises, drops a partial line with no event, and does not
touch the transmit path. Nothing is claimed of the cells of `buf`. With nothing presented, a step changes nothing
(R30, R250). That a reset can be presented at any time, and that it clears the receive event and the instance's host, is
the model's choice, notes/assumptions/18.md. -/
def Obligations.ResetEventEmptiesTheLine : Prop :=
  (∀ (s : State) (rest : List HostOp), s.pending = .reset :: rest →
    ∃ t, step s = .next t ∧ t.filled = 0 ∧ t.desynced = false ∧ t.rxOut = none ∧ t.owner = none ∧
      t.txOut = s.txOut ∧ t.decOut = s.decOut ∧ t.pending = rest) ∧
  (∀ s : State, s.pending = [] → step s = .next s)

/-- R216 duty 2, R279: what a second host agent presents is refused, on the receive port and on every other; what the
host of the instance presents is not refused for its agent. How the agent is known is the model's choice,
notes/assumptions/17.md. -/
def Obligations.SecondHostIsRefusedOnEveryPort : Prop :=
  ∀ (s : State) (a o : Nat) (w : PortWord) (rest : List HostOp),
    s.pending = .port a w :: rest → s.owner = some o →
      (o ≠ a → step s = .refused .secondHost) ∧ (o = a → step s ≠ .refused .secondHost)

/-! ### The Hex Codec -/

/-- R120: the 22 accepted bytes and their values; every other byte is `MalformedHex`. -/
def Obligations.DigitToValueIsTheTable : Prop :=
  ∀ b : Byte,
    (∀ v, hexValue b = some v → digitToValue b = .ok (BitVec.ofNat 4 v) ∧ v < 16) ∧
    (hexValue b = none → digitToValue b = .err .malformedHex)

/-- R121: a pair gives `16 * high + low`, and either bad byte makes it malformed. -/
def Obligations.HexPairIsHighNibbleFirst : Prop :=
  ∀ h l : Byte,
    (∀ x y, hexValue h = some x → hexValue l = some y →
      ∃ v, byteFromHexPair h l = .ok v ∧ v.toNat = 16 * x + y) ∧
    ((hexValue h = none ∨ hexValue l = none) → byteFromHexPair h l = .err .malformedHex)

/-- R64, R122, R123, R128: an identifier field has the value of its digits, most significant first, or, with any bad
digit, no value at all. -/
def Obligations.IdentifierDigitsAreMostSignificantFirst : Prop :=
  (∀ s : List Byte, s.length = 3 → (∀ c, c ∈ s → (hexValue c).isSome = true) →
    ∃ v, u16From3Hex s = .ok v ∧ v.toNat = fieldValue (s.map fun c => (hexValue c).getD 0)) ∧
  (∀ s : List Byte, s.length = 3 → (∃ c, c ∈ s ∧ hexValue c = none) → u16From3Hex s = .err .malformedHex) ∧
  (∀ s : List Byte, s.length = 8 → (∀ c, c ∈ s → (hexValue c).isSome = true) →
    ∃ v, u32From8Hex s = .ok v ∧ v.toNat = fieldValue (s.map fun c => (hexValue c).getD 0)) ∧
  (∀ s : List Byte, s.length = 8 → (∃ c, c ∈ s ∧ hexValue c = none) → u32From8Hex s = .err .malformedHex)

/-- R130: decoding what the Hex Codec encoded gives it back, in the four laws of the rule. -/
def Obligations.HexDecodingInvertsHexEncoding : Prop :=
  (∀ v : Nibble, digitToValue (valueToHexDigit v) = .ok v) ∧
  (∀ x : Byte, ∃ h l, bytesToHexPairs [x] = [h, l] ∧ byteFromHexPair h l = .ok x) ∧
  (∀ v : BitVec 16, v.toNat ≤ 0xFFF → u16From3Hex (u16To3Hex v) = .ok v) ∧
  (∀ v : BitVec 32, u32From8Hex (u32To8Hex v) = .ok v)

/-! ### The transmit path -/

/-- R87: an in-range request for a standard frame gives the `t` line with the byte the table has at every position, and
changes nothing but the transmit port. -/
def Obligations.EncStdGivesTheStandardLine : Prop :=
  ∀ (id : BitVec 32) (len : Nat) (data : Payload) (s : State), id.toNat ≤ 0x7FF → len ≤ 8 →
    ∃ line, exec (.encStd id len data) s = .next { s with txOut := [.ok line] } ∧
      IsFrameLine .std id.toNat len data line

/-- R88: an in-range request for an extended frame gives the `T` line, likewise. -/
def Obligations.EncExtGivesTheExtendedLine : Prop :=
  ∀ (id : BitVec 32) (len : Nat) (data : Payload) (s : State), id.toNat ≤ 0x1FFFFFFF → len ≤ 8 →
    ∃ line, exec (.encExt id len data) s = .next { s with txOut := [.ok line] } ∧
      IsFrameLine .ext id.toNat len data line

/-- R144: a payload length above 8 gives `InvalidLength` and no bytes, when the identifier is in range. -/
def Obligations.EncodeRejectsLongPayload : Prop :=
  ∀ (k : Kind) (id : BitVec 32) (len : Nat) (data : Payload) (s : State), id.toNat ≤ maxId k → 8 < len →
    exec (encodeInstr k id len data) s = .next { s with txOut := [.err .invalidLength] }

/-- R141, R148: an identifier out of range gives `IdentifierOutOfRange` whatever the length. The check at the port and
its order are decision D13 of the spec, notes/assumptions/14.md. -/
def Obligations.EncodeRejectsIdentifierFirst : Prop :=
  ∀ (k : Kind) (id : BitVec 32) (len : Nat) (data : Payload) (s : State), maxId k < id.toNat →
    exec (encodeInstr k id len data) s = .next { s with txOut := [.err .identifierOutOfRange] }

/-- R84, R85, R86: the Setup, Open and Close lines, which change nothing but the transmit port. -/
def Obligations.CommandLinesAreAsFormatted : Prop :=
  (∀ (rate : Nibble) (s : State), rate.toNat ≤ 8 →
    exec (.encSetup rate) s = .next { s with txOut := [.ok [0x53, BitVec.ofNat 8 (0x30 + rate.toNat), 0x0D]] }) ∧
  (∀ s : State, exec .encOpen s = .next { s with txOut := [.ok [0x4F, 0x0D]] }) ∧
  (∀ s : State, exec .encClose s = .next { s with txOut := [.ok [0x43, 0x0D]] })

/-- R145: a rate code 9 to 15 gives `InvalidBitRate` and no bytes: decision D14 of the spec,
notes/assumptions/15.md. -/
def Obligations.SetupRejectsRateAboveEight : Prop :=
  ∀ (rate : Nibble) (s : State), 8 < rate.toNat →
    exec (.encSetup rate) s = .next { s with txOut := [.err .invalidBitRate] }

/-- R103: OPEN_CHANNEL is ENC.S with the rate's digit (R49) followed by ENC.O: its responses are those of the two, and
their bytes are the five of the rule. That the model runs it as one step is notes/assumptions/19.md. -/
def Obligations.OpenChannelIsSetupThenOpen : Prop :=
  ∀ (r : BitRate) (s : State),
    exec (.openChannel r) s = .next { s with txOut := [.ok (setupLine r), .ok [0x4F, 0x0D]] } ∧
    exec (.encSetup (BitVec.ofNat 4 (rateDigit r))) s = .next { s with txOut := [.ok (setupLine r)] } ∧
    exec .encOpen s = .next { s with txOut := [.ok [0x4F, 0x0D]] }

/-- R150: a request with op code 5, 6 or 7 is refused and gets no response, as an instruction and as a step
for the host of the instance (for a second host the step is refused too, as SecondHostIsRefusedOnEveryPort says).
Decision D15 of the spec, notes/assumptions/16.md. -/
def Obligations.ReservedTransmitCodesAreRefused : Prop :=
  (∀ (op : BitVec 3) (s : State), exec (.encReserved op) s = .refused (.reservedTransmitOp op)) ∧
  (∀ (s : State) (a : Nat) (r : TxRequest) (rest : List HostOp), s.pending = .port a (.tx r) :: rest →
    s.owner = none ∨ s.owner = some a → 5 ≤ r.op.toNat → step s = .refused (.reservedTransmitOp r.op))

/-- R41: an encode transaction reads only its request and writes only its response: it leaves every other field and
every byte of the buffer as it was, and two states give the same response. -/
def Obligations.TransmitReadsRequestWritesResponse : Prop :=
  ∀ (i : Instr) (s s' : State), transmits i = true →
    ∃ t t', exec i s = .next t ∧ exec i s' = .next t' ∧ t.txOut = t'.txOut ∧
      t = { s with txOut := t.txOut } ∧ (∀ a, t.buf.read a = s.buf.read a) ∧
      t.filled = s.filled ∧ t.desynced = s.desynced

/-- R152: the container bytes at and beyond `len` do not affect the output, whatever their values. -/
def Obligations.PayloadBeyondLengthIsNotRead : Prop :=
  ∀ (k : Kind) (id : BitVec 32) (len : Nat) (data data' : Payload) (s : State),
    (∀ i (h : i < 8), i < len → data[i] = data'[i]) →
      exec (encodeInstr k id len data) s = exec (encodeInstr k id len data') s

/-- R96, R93: the bytes a transmit instruction can emit, and how many. -/
def Obligations.EmittedLinesUseTheOutputAlphabet : Prop :=
  ∀ (i : Instr) (s t : State) (line : List Byte), transmits i = true → exec i s = .next t → .ok line ∈ t.txOut →
    2 ≤ line.length ∧ line.length ≤ 27 ∧ line.getLast? = some 0x0D ∧
    ∀ b, b ∈ line.dropLast → b ∈ upperDigits ∨ b = 0x53 ∨ b = 0x4F ∨ b = 0x43 ∨ b = 0x74 ∨ b = 0x54

/-! ### The receive path -/

/-- R162: RX.CR in its three cases, in every state whose line can be read. The names of the discard reasons are
decision D12 of the spec, notes/assumptions/28.md; the capacity 28 is its decision D3, notes/assumptions/9.md. -/
def Obligations.CarriageReturnEndsTheLine : Prop :=
  ∀ s : State,
    (s.desynced = true →
      exec .rxCr s = .next { s with filled := 0, desynced := false, rxOut := some (.discard .overflowed) }) ∧
    (s.desynced = false → s.filled ≤ 4 →
      exec .rxCr s = .next { s with filled := 0, desynced := false, rxOut := some (.discard .tooShort) }) ∧
    (∀ L : List Byte, s.desynced = false → 4 < s.filled → s.filled ≤ 28 → L.length = s.filled →
      (∀ i (h : i < L.length), s.buf.read i = some L[i]) →
        (∀ f, decodeLine L = .ok f →
          exec .rxCr s = .next { s with filled := 0, desynced := false, rxOut := some (.frame f) }) ∧
        (∀ c, decodeLine L = .err c →
          exec .rxCr s = .next { s with filled := 0, desynced := false, rxOut := some (.decodeError c) }))

/-- R163: BEL aborts the line in every state, and with the policy `AsCR` it ends the line as CR does (R16). `Abort` is
the spec's choice, decision D6, notes/assumptions/10.md. -/
def Obligations.BellAbortsTheLine : Prop :=
  (∀ s : State,
    exec .rxBel s = .next { s with filled := 0, desynced := false, rxOut := some (.discard .aborted) }) ∧
  (∀ (P : Params) (s : State), P.belPolicy = .abort →
    rxBel P s = .next { s with filled := 0, desynced := false, rxOut := some (.discard .aborted) }) ∧
  (∀ (P : Params) (s : State), P.belPolicy = .asCr → rxBel P s = rxCr P s)

/-- R164: an ordinary byte is appended while there is room: it is the byte of the cell at `filled`, every other cell is
as it was, `filled` goes up by one, and nothing else changes but the event, `None`. Room is `filled < P_CAPACITY`,
whatever the number. -/
def Obligations.OrdinaryByteIsAppended : Prop :=
  ∀ (b : Byte) (s : State), b ≠ 0x0D → b ≠ 0x07 → s.desynced = false → s.filled < params.capacity →
    ∃ t, exec (.rxOther b) s = .next t ∧ t.filled = s.filled + 1 ∧ t.rxOut = some .none ∧
      t.buf.read s.filled = some b ∧ (∀ a, a ≠ s.filled → t.buf.read a = s.buf.read a) ∧
      t = { s with buf := t.buf, filled := t.filled, rxOut := t.rxOut }

/-- R165, R166: an ordinary byte at a full buffer sets `desynced` and is not appended; while discarding it is dropped.
Both give `None` and change nothing else. Full is `filled = P_CAPACITY`, whatever the number. -/
def Obligations.FullBufferOverflowsAndDiscardingDrops : Prop :=
  ∀ (b : Byte) (s : State), b ≠ 0x0D → b ≠ 0x07 →
    (s.desynced = false → s.filled = params.capacity →
      exec (.rxOther b) s = .next { s with desynced := true, rxOut := some .none }) ∧
    (s.desynced = true → exec (.rxOther b) s = .next { s with rxOut := some .none })

/-- R61: only an append writes the buffer, one cell of it, `buf[filled]` with `filled` below the capacity, and then
increments `filled`. Every other instruction leaves every cell as it was. -/
def Obligations.OnlyAnAppendWritesTheBuffer : Prop :=
  ∀ (i : Instr) (s t : State), exec i s = .next t →
    (∀ a, t.buf.read a = s.buf.read a) ∨
    (∃ b, i = .rxOther b ∧ s.desynced = false ∧ s.filled < params.capacity ∧ t.filled = s.filled + 1 ∧
      ∀ a, a ≠ s.filled → t.buf.read a = s.buf.read a)

/-- R40: over all instructions, `desynced` is set only by a receive step that overflows the buffer and cleared only by
a delimiter; and every delimiter clears it. -/
def Obligations.DesyncedChangesOnlyAtOverflowAndDelimiter : Prop :=
  ∀ (i : Instr) (s t : State), exec i s = .next t →
    (s.desynced = false → t.desynced = true → (∃ b, i = .rxOther b) ∧ s.filled = params.capacity) ∧
    (s.desynced = true → t.desynced = false → i = .rxCr ∨ i = .rxBel) ∧
    (i = .rxCr ∨ i = .rxBel → t.desynced = false)

/-- R44: a delimiter always resets `filled` and `desynced`, whether the line was accepted or discarded: for CR and BEL,
for any parameters, and under either BEL policy. In every state of the invariant it completes. -/
def Obligations.EveryDelimiterResynchronises : Prop :=
  ∀ (P : Params) (s : State),
    (∀ t, rxCr P s = .next t ∨ rxBel P s = .next t → t.filled = 0 ∧ t.desynced = false) ∧
    (s.Inv P → (∃ t, rxCr P s = .next t) ∧ ∃ t, rxBel P s = .next t)

/-- R160: every byte presented is consumed; no byte is refused or held back. In a state of the invariant every receive
step completes, and it gives an event other than `None` exactly at a delimiter (R170 law 3). -/
def Obligations.EveryByteIsConsumedWithItsEvent : Prop :=
  ∀ (s : State) (b : Byte), s.Inv params →
    ∃ t ev, rxStep b s = .next (t, ev) ∧ (ev = .none ↔ b ≠ 0x0D ∧ b ≠ 0x07)

/-- The frame of the receive instructions: the transmit and decoder ports, the host of the instance and the pending
presentations stay as they were (R41, R73). So do the buffer's bytes at a delimiter (R169), and at any other byte all
but the cell at `filled` (R164), and that one too when the byte is dropped or overflows the buffer (R165, R166). -/
def Obligations.ReceiveStepsLeaveTheOtherPortsAlone : Prop :=
  ∀ (i : Instr) (s t : State), receives i = true → exec i s = .next t →
    t.txOut = s.txOut ∧ t.decOut = s.decOut ∧ t.owner = s.owner ∧ t.pending = s.pending ∧
    (i = .rxCr ∨ i = .rxBel → ∀ a, t.buf.read a = s.buf.read a) ∧
    (∀ b, i = .rxOther b →
      (∀ a, a ≠ s.filled → t.buf.read a = s.buf.read a) ∧
      (s.desynced = true ∨ s.filled = params.capacity → ∀ a, t.buf.read a = s.buf.read a))

/-- R73: transmit operations and receive steps may interleave in any order, with the same results in every order. -/
def Obligations.TransmitAndReceiveCommute : Prop :=
  ∀ (i j : Instr) (s : State), transmits i = true → receives j = true →
    (∀ t u, exec i s = .next t → exec j t = .next u → ∃ v, exec j s = .next v ∧ exec i v = .next u) ∧
    (∀ t u, exec j s = .next t → exec i t = .next u → ∃ v, exec i s = .next v ∧ exec j v = .next u)

/-- R195, N5: the result of a CR depends on the line alone: not on the cells at or beyond `filled`, which the spec
leaves unspecified (R43), nor on anything else in the state. -/
def Obligations.LineResultDependsOnTheLineAlone : Prop :=
  ∀ s s' : State, s.desynced = false → s'.desynced = false → s.filled = s'.filled →
    (∀ a, a < s.filled → s.buf.read a = s'.buf.read a) →
    ∀ t, exec .rxCr s = .next t → ∃ t', exec .rxCr s' = .next t' ∧ t'.rxOut = t.rxOut

/-- R240: after a delimiter the receive path behaves as if fed a fresh stream: from any two states between lines, any
bytes give the same events in the same order, whatever stands in the buffer. -/
def Obligations.StreamAfterADelimiterIsFresh : Prop :=
  ∀ (s s' : State) (bs : List Byte) (u : State) (evs : List Event), BetweenLines s → BetweenLines s' →
    rxFeed bs s = .next (u, evs) → ∃ u', rxFeed bs s' = .next (u', evs)

/-- R171: how the bytes are grouped into read calls does not matter. Whatever answers without data, and whatever
transport errors, stand among the bytes of a stream, enough `read` calls take every byte, end with the block that
feeding the unsplit stream gives, and report the frames and decode errors of its events, in order; the unsplit stream
gives the same. That a read returns at a discard is decision D18 of the spec, notes/assumptions/24.md; the number of
calls is all that depends on it. -/
def Obligations.FeedingIsResumableAtAnyByte : Prop :=
  ∀ (c : Channel) (script : List TransportRead) (n m : Nat), c.block.Inv params →
    script.length ≤ n → (streamBytes script).length ≤ m →
      ∃ t evs rs us, rxFeed (streamBytes script) c.block = .next (t, evs) ∧
        (withReads c script).readTimes n = .next (withReads { c with block := t } [], rs) ∧
        (withReads c ((streamBytes script).map .byte)).readTimes m = .next (withReads { c with block := t } [], us) ∧
        rs.filter reportsLine = evs.filterMap lineResult ∧ us.filter reportsLine = evs.filterMap lineResult

/-- R170 law 4: more than `P_CAPACITY` ordinary bytes and a CR give `Discard(Overflowed)` and nothing before it, and
leave the receive path between lines. The capacity is `P_CAPACITY`, whatever the number. -/
def Obligations.OverflowHealsAtTheDelimiter : Prop :=
  ∀ (s : State) (bs : List Byte), BetweenLines s → LineBytes bs → params.capacity < bs.length →
    ∃ t, rxFeed (bs ++ [0x0D]) s = .next (t, List.replicate bs.length .none ++ [.discard .overflowed]) ∧
      BetweenLines t

/-- R274: a line feed left over from a CR LF line end spoils the next line: its decode gives `NotDataFrame`, or, with
fewer than 4 further bytes, it is too short. The line fits when fewer than `P_CAPACITY` bytes follow the line feed,
whatever the number. -/
def Obligations.LineFeedSpoilsTheNextLine : Prop :=
  ∀ (s : State) (bs : List Byte), BetweenLines s → LineBytes bs → bs.length < params.capacity →
    ∃ t, rxFeed (0x0A :: bs ++ [0x0D]) s = .next (t, List.replicate (bs.length + 1) .none ++
      [if bs.length < 4 then .discard .tooShort else .decodeError .notDataFrame]) ∧ BetweenLines t

/-! ### The Line Decoder -/

/-- R184, R192: DEC.t on every line that begins with `'t'`, with the checks in the order of R192. The error of a
truncated line and the zeros beyond the payload are decisions D8 and D10 of the spec, notes/assumptions/11.md and
13.md. Only the decoder's output changes. -/
def Obligations.DecStdFollowsTheLineRules : Prop :=
  ∀ (rest : List Byte) (s : State), ∃ r, exec (.decStd rest) s = .next { s with decOut := some r } ∧
    DataLineResult .std (0x74 :: rest) r

/-- R185, R192: DEC.T, likewise. -/
def Obligations.DecExtFollowsTheLineRules : Prop :=
  ∀ (rest : List Byte) (s : State), ∃ r, exec (.decExt rest) s = .next { s with decOut := some r } ∧
    DataLineResult .ext (0x54 :: rest) r

/-- R182: a line that begins with `'S'`, `'O'` or `'C'` gives `NotDataFrame`, whatever follows the command byte, and
changes only the decoder's output. -/
def Obligations.CommandLinesAreNotDataFrames : Prop :=
  ∀ (rest : List Byte) (s : State),
    exec (.decSetup rest) s = .next { s with decOut := some (.err .notDataFrame) } ∧
    exec (.decOpen rest) s = .next { s with decOut := some (.err .notDataFrame) } ∧
    exec (.decClose rest) s = .next { s with decOut := some (.err .notDataFrame) }

/-- R183: a line whose first byte is no command byte gives the same result, and so does the empty line (R180). That the
code is the one of R182 is decision D16 of the spec, notes/assumptions/20.md. -/
def Obligations.UnrecognisedLinesAreNotDataFrames : Prop :=
  ∀ (L : List Byte) (s : State), (∀ b, L.head? = some b → commandOf b = none) →
    decode (.line L) = .decOther L ∧ exec (.decOther L) s = .next { s with decOut := some (.err .notDataFrame) }

/-- R180: a line presented to the decoder is dispatched on its command byte to the DEC instruction of its class. The
result is that of `decodeLine`, and when the same line is buffered, of a length that is decoded, RX.CR reports it as its
event (R162). That a line can be presented to the decoder directly is the model's choice, notes/assumptions/4.md. -/
def Obligations.DecodeLineDispatchesOnTheCommandByte : Prop :=
  (∀ (L : List Byte) (s : State), exec (decode (.line L)) s = .next { s with decOut := some (decodeLine L) }) ∧
  (∀ (L : List Byte) (s : State), s.desynced = false → params.minValid ≤ s.filled → s.filled ≤ params.capacity →
    Buffered s L → ∃ r, exec (decode (.line L)) s = .next { s with decOut := some r } ∧
      exec .rxCr s = .next { s with filled := 0, desynced := false, rxOut := some (lineEvent r) })

/-- R193: decoding writes no Reassembly State, whatever its result. It leaves the other ports alone as well. -/
def Obligations.DecodingWritesNoState : Prop :=
  ∀ (i : Instr) (s : State), decodesLine i = true →
    ∃ t, exec i s = .next t ∧ t.reassembly = s.reassembly ∧ (∀ a, t.buf.read a = s.buf.read a) ∧
      t.txOut = s.txOut ∧ t.rxOut = s.rxOut ∧ t.owner = s.owner ∧ t.pending = s.pending

/-- R190: characters after the last payload pair do not change the frame. Decision D9 of the spec,
notes/assumptions/12.md. -/
def Obligations.TrailingCharactersAreIgnored : Prop :=
  ∀ (L extra : List Byte) (f : Frame) (s : State),
    exec (decode (.line L)) s = .next { s with decOut := some (.ok f) } →
    exec (decode (.line (L ++ extra))) s = .next { s with decOut := some (.ok f) }

/-- R189: a line that ends anywhere inside its fields is malformed. Decision D8 of the spec, notes/assumptions/11.md. -/
def Obligations.TruncatedFrameLineIsMalformed : Prop :=
  ∀ (k : Kind) (id : BitVec 32) (len : Nat) (data : Payload) (line : List Byte) (n : Nat) (s : State),
    exec (encodeInstr k id len data) s = .next { s with txOut := [.ok line] } → 1 ≤ n → n < line.length - 1 →
      exec (decode (.line (line.take n))) s = .next { s with decOut := some (.err .malformedHex) }

/-- R194: decoding the line of an encoded frame, without its CR, gives the identifier, the length and the meaningful
payload bytes back, for both classes and every operand the encoder accepts. -/
def Obligations.DecodedLineIsTheEncodedFrame : Prop :=
  ∀ (k : Kind) (id : BitVec 32) (len : Nat) (data : Payload) (line : List Byte) (s : State),
    exec (encodeInstr k id len data) s = .next { s with txOut := [.ok line] } →
      ∃ f, exec (decode (.line line.dropLast)) s = .next { s with decOut := some (.ok f) } ∧
        Carries f k id.toNat len data

/-- R194: the bytes of an encoded frame's line, presented one by one between lines, give `None` at every byte but the
last and the frame at the CR. -/
def Obligations.EncodedFrameComesBackOnTheWire : Prop :=
  ∀ (k : Kind) (id : BitVec 32) (len : Nat) (data : Payload) (line : List Byte) (s : State),
    exec (encodeInstr k id len data) s = .next { s with txOut := [.ok line] } → BetweenLines s →
      ∃ t f, rxFeed line s = .next (t, List.replicate (line.length - 1) .none ++ [.frame f]) ∧
        Carries f k id.toNat len data ∧ BetweenLines t

/-- R50: an identifier is made from a number in the range of its class, and keeps the number; any other number fails.
The name of the failure is decision D13 of the spec, notes/assumptions/14.md. -/
def Obligations.IdentifierOutOfRangeCannotBeMade : Prop :=
  ∀ (k : Kind) (v : Nat),
    (v ≤ maxId k → ∃ id, makeIdentifier k v = .ok id ∧ identifierKind id = k ∧ identifierValue id = v) ∧
    (maxId k < v → makeIdentifier k v = .err .identifierOutOfRange)

/-! ### The machine as a whole -/

/-- R60, R33, R35, R36: every step keeps the invariant of the receive path: the buffer canonical and within its
capacity, `filled ≤ P_CAPACITY`, `desynced` only at a full buffer, every buffered cell written and no delimiter. -/
def Obligations.EveryStepKeepsTheInvariant : Prop :=
  ∀ s t : State, s.Inv params → step s = .next t → t.Inv params

/-- The invariant holds at reset. -/
def Obligations.ResetMeetsTheInvariant : Prop :=
  State.reset.Inv params

/-- From a state of the invariant no step faults, and the only inputs refused are a reserved op code (R150) and a value
that a second host presents (R216 duty 2, R279). -/
def Obligations.InvariantStatesNeverFault : Prop :=
  ∀ s : State, s.Inv params →
    SafeStep s ∧
    ∀ r, step s = .refused r →
      (∃ a q rest, s.pending = .port a (.tx q) :: rest ∧ 5 ≤ q.op.toNat ∧ r = .reservedTransmitOp q.op) ∨
      (∃ a w rest o, s.pending = .port a w :: rest ∧ s.owner = some o ∧ o ≠ a ∧ r = .secondHost)

/-- R170 law 1 for any parameters, under either BEL policy: the receive rules keep the invariant, so the buffer never
grows beyond its capacity. -/
def Obligations.ReceiveRulesKeepTheInvariantForAnyParameters : Prop :=
  ∀ (P : Params) (s t : State) (b : Byte), s.Inv P → LineByte b →
    rxCr P s = .next t ∨ rxBel P s = .next t ∨ rxOther P b s = .next t → t.Inv P

/-- R60: a buffer cell reads as last written, a write leaves every other cell alone, and it keeps the canonical form. -/
def Obligations.BufferReadsWhatWasWritten : Prop :=
  ∀ (m : Memory) (a : Nat) (b : Byte),
    (m.write a b).read a = some b ∧ (∀ c, c ≠ a → (m.write a b).read c = m.read c) ∧
    (m.wf = true → (m.write a b).wf = true)

/-! ### The host operations -/

/-- R212, R213: `open(r)` writes the five bytes of OPEN_CHANNEL, with the digit of the rate, and `close()` the two of
ENC.C, over a transport whose writes do not fail; the Reassembly State is not touched. The retry is decision D20 of the
spec, and the numbers returned are the model's choice, notes/assumptions/24.md. -/
def Obligations.OpenAndCloseWriteTheirLines : Prop :=
  (∀ (r : BitRate) (c : Channel), NoWriteError c.transport →
    ∃ c', c.openAt r = .next (c', .ok 5) ∧ c'.block.reassembly = c.block.reassembly ∧
      c'.transport.sent = c.transport.sent ++ setupLine r ++ [0x4F, 0x0D] ∧
      c'.transport.reads = c.transport.reads) ∧
  (∀ c : Channel, NoWriteError c.transport →
    ∃ c', c.close = .next (c', .ok 2) ∧ c'.block.reassembly = c.block.reassembly ∧
      c'.transport.sent = c.transport.sent ++ [0x43, 0x0D] ∧ c'.transport.reads = c.transport.reads)

/-- R214: `write` puts the whole line on a transport whose writes do not fail, however few bytes each accepts, and
returns the line's length; a payload above 8 bytes gives `InvalidLength` and nothing is written. The retry and the value
returned are decision D20 of the spec, notes/assumptions/24.md. -/
def Obligations.WriteSendsTheWholeLine : Prop :=
  ∀ (id : Identifier) (payload : List Byte) (c : Channel),
    (payload.length ≤ 8 → NoWriteError c.transport →
      ∃ line c', IsFrameLine (identifierKind id) (identifierValue id) payload.length (payloadOfBytes payload) line ∧
        c.write id payload = .next (c', .ok line.length) ∧ c'.transport.sent = c.transport.sent ++ line ∧
        c'.block = { c.block with txOut := [.ok line] }) ∧
    (8 < payload.length →
      c.write id payload =
        .next ({ c with block := { c.block with txOut := [.err .invalidLength] } }, .err (.code .invalidLength)))

/-- R214: whatever the transport does, `write` of a payload of at most 8 bytes either writes the whole line or returns
the transport's own error with a part of the line written, from its start (the hazard of R278). The retry until the
whole line is sent and the length returned are decision D20 of the spec, a choice, notes/assumptions/24.md. -/
def Obligations.FailedWriteLeavesAPrefix : Prop :=
  ∀ (id : Identifier) (payload : List Byte) (c : Channel), payload.length ≤ 8 →
    ∃ line c' r sent,
      IsFrameLine (identifierKind id) (identifierValue id) payload.length (payloadOfBytes payload) line ∧
      c.write id payload = .next (c', r) ∧ c'.transport.sent = c.transport.sent ++ sent ∧
      ((r = .ok line.length ∧ sent = line) ∨
       (∃ e, r = .err (.io e) ∧ .ioError e ∈ c.transport.writes ∧ sent <+: line ∧ sent ≠ line))

/-- R215: `read()` passes the transport's bytes to the receive steps and returns at the first line's end, with the
frame, the decode error, or would-block after a discard; or when the transport has no byte or fails. What it has not
taken stays for the next call, and a partial line stays in the block. The results after a decode error and a discard are
decisions D17 and D18 of the spec, notes/assumptions/24.md. -/
def Obligations.ReadReturnsAtTheEndOfALine : Prop :=
  ∀ (c : Channel) (bs : List Byte) (t : State) (evs : List Event) (rest : List TransportRead),
    rxFeed bs c.block = .next (t, evs) → (∀ e, e ∈ evs → e = .none) →
    (c.transport.reads = bs.map .byte →
      c.read = .next (⟨t, { c.transport with reads := [] }⟩, .err .wouldBlock)) ∧
    (c.transport.reads = bs.map .byte ++ .noData :: rest →
      c.read = .next (⟨t, { c.transport with reads := rest }⟩, .err .wouldBlock)) ∧
    (∀ e, c.transport.reads = bs.map .byte ++ .ioError e :: rest →
      c.read = .next (⟨t, { c.transport with reads := rest }⟩, .err (.io e))) ∧
    (∀ d u ev, rxStep d t = .next (u, ev) → c.transport.reads = bs.map .byte ++ .byte d :: rest →
      (∀ f, ev = .frame f → c.read = .next (⟨u, { c.transport with reads := rest }⟩, .ok f)) ∧
      (∀ code, ev = .decodeError code →
        c.read = .next (⟨u, { c.transport with reads := rest }⟩, .err (.code code))) ∧
      (∀ reason, ev = .discard reason →
        c.read = .next (⟨u, { c.transport with reads := rest }⟩, .err .wouldBlock)))
end

