-- ==== Sys2Proof/Laws/Decode.lean ====
section
/-! SUPPORT. The decoder's classes of port values. -/

namespace Sys2Proof

@[simp] theorem commandOf_commandByte (c : Command) : commandOf (commandByte c) = some c := by
  cases c <;> rfl

/-- `commandOf` recognises exactly the five command bytes. -/
theorem commandOf_eq_some {b : Byte} {c : Command} : commandOf b = some c ↔ b = commandByte c := by
  constructor
  · intro h
    unfold commandOf at h
    split_ifs at h <;> cases h <;> assumption
  · rintro rfl; simp

/-- What a byte on the receive port decodes to. -/
theorem decodeRx_cases (b : Byte) :
    (b = Config.cr ∧ decodeRx b = .rxCr) ∨ (b = Config.bel ∧ decodeRx b = .rxBel) ∨
    (b ≠ Config.cr ∧ b ≠ Config.bel ∧ decodeRx b = .rxOther b) := by
  by_cases h1 : b = Config.cr
  · exact .inl ⟨h1, by simp [decodeRx, h1]⟩
  · by_cases h2 : b = Config.bel
    · exact .inr (.inl ⟨h2, by rw [h2]; rfl⟩)
    · exact .inr (.inr ⟨h1, h2, by simp [decodeRx, h1, h2]⟩)

/-- What a line on the Line Decoder's input decodes to. -/
theorem decodeLineWord_cons (b : Byte) (rest : List Byte) :
    (∃ c, b = commandByte c) ∨ (commandOf b = none ∧ decodeLineWord (b :: rest) = .decOther (b :: rest)) := by
  cases h : commandOf b with
  | none => exact .inr ⟨rfl, by simp [decodeLineWord, h]⟩
  | some c => exact .inl ⟨c, commandOf_eq_some.mp h⟩

end Sys2Proof
end

