-- ==== Sys2Proof/Laws/Memory.lean ====
section
/-! SUPPORT. The line buffer: a read after a write, the canonical form, and what reading the line gives. -/

namespace Sys2Proof.Machine.Memory

@[simp] theorem read_nil (a : Nat) : read [] a = none := rfl

/-- The written cell holds the byte; every other cell is as it was. -/
theorem read_write (m : Memory) (a : Nat) (b : Byte) (c : Nat) :
    (m.write a b).read c = if c = a then some b else m.read c := by
  induction m with
  | nil => simp [write, read]
  | cons e rest ih =>
    obtain ⟨x, v⟩ := e
    simp only [write]
    split
    · simp only [read]
    · split
      · next h => subst h; simp only [read]; split <;> rfl
      · next hne =>
        simp only [read, ih]
        split
        · next hcx => subst hcx; simp [Ne.symm hne]
        · rfl

@[simp] theorem read_write_same (m : Memory) (a : Nat) (b : Byte) : (m.write a b).read a = some b := by
  simp [read_write]

theorem read_write_other {m : Memory} {a c : Nat} {b : Byte} (h : c ≠ a) : (m.write a b).read c = m.read c := by
  simp [read_write, h]

theorem wf_cons {x : Nat} {b : Byte} {rest : Memory} :
    wf ((x, b) :: rest) = true ↔ (∀ e, rest.head? = some e → x < e.1) ∧ wf rest = true := by
  cases rest with
  | nil => simp [wf]
  | cons e rest => simp [wf]

theorem head_write (m : Memory) (a : Nat) (b : Byte) :
    ∀ e, (m.write a b).head? = some e → e.1 = a ∨ ∃ e', m.head? = some e' ∧ e.1 = e'.1 := by
  intro e h
  cases m with
  | nil => simp [write] at h; simp [← h]
  | cons c rest =>
    obtain ⟨x, v⟩ := c
    simp only [write] at h
    split at h
    · simp at h; simp [← h]
    · split at h
      · simp at h; simp [← h]
      · simp at h; simp [← h]

/-- A write keeps the canonical form. -/
theorem wf_write {m : Memory} (a : Nat) (b : Byte) (h : m.wf = true) : (m.write a b).wf = true := by
  induction m with
  | nil => rfl
  | cons c rest ih =>
    obtain ⟨x, v⟩ := c
    obtain ⟨hx, hrest⟩ := wf_cons.mp h
    simp only [write]
    split
    · next hlt => exact wf_cons.mpr ⟨by simpa using hlt, h⟩
    · split
      · next heq => subst heq; exact wf_cons.mpr ⟨hx, hrest⟩
      · next hge hne =>
        refine wf_cons.mpr ⟨fun e he => ?_, ih hrest⟩
        rcases head_write rest a b e he with h1 | ⟨e', h1, h2⟩
        · omega
        · rw [h2]; exact hx e' h1

/-- A write to an existing cell keeps the buffer within its capacity. -/
theorem within_write {m : Memory} {n a : Nat} {b : Byte} (ha : a < n) (h : m.within n = true) :
    (m.write a b).within n = true := by
  induction m with
  | nil => simp [write, within, ha]
  | cons c rest ih =>
    obtain ⟨x, v⟩ := c
    simp only [within, List.all_cons, Bool.and_eq_true, decide_eq_true_eq] at h ih ⊢
    simp only [write]
    split
    · simp [ha, h.1, h.2]
    · split
      · simp [ha, h.2]
      · simp [h.1, ih h.2]

/-- Reading cells that exist and are written gives their bytes. -/
theorem readCells_eq_ok {P : Params} {m : Memory} {L : List Byte} {i : Nat} (hn : i + L.length ≤ P.capacity)
    (h : ∀ j (hj : j < L.length), m.read (i + j) = some L[j]) : m.readCells P i L.length = .ok L := by
  induction L generalizing i with
  | nil => rfl
  | cons b bs ih =>
    have hb : m.read i = some b := h 0 (Nat.succ_pos _)
    have hlt : i < P.capacity := by simp at hn; omega
    have ht : m.readCells P (i + 1) bs.length = .ok bs := by
      refine ih (by simp at hn; omega) fun j hj => ?_
      have := h (j + 1) (by simp; omega)
      simpa [Nat.add_assoc, Nat.add_comm 1 j] using this
    simp [readCells, hlt, hb, ht]

/-- What reading cells can give: the bytes of the cells, one for each, or a reason why one of them cannot be read. -/
theorem readCells_cases (P : Params) (m : Memory) (i n : Nat) :
    (∃ L, m.readCells P i n = .ok L ∧ L.length = n ∧ (n = 0 ∨ i + n ≤ P.capacity) ∧
      ∀ j (hj : j < L.length), m.read (i + j) = some L[j]) ∨
    (m.readCells P i n = .error .noSuchCell ∧ P.capacity < i + n) ∨
    (m.readCells P i n = .error .unwrittenCell ∧ ∃ j, j < n ∧ m.read (i + j) = none) := by
  induction n generalizing i with
  | zero => exact .inl ⟨[], rfl, rfl, .inl rfl, by simp⟩
  | succ n ih =>
    by_cases hi : i < P.capacity
    · cases hb : m.read i with
      | none => exact .inr (.inr ⟨by simp [readCells, hi, hb], 0, by omega, by simpa using hb⟩)
      | some b =>
        rcases ih (i + 1) with ⟨L, h1, h2, h3, h4⟩ | ⟨h1, h2⟩ | ⟨h1, j, h2, h3⟩
        · refine .inl ⟨b :: L, by simp [readCells, hi, hb, h1], by simp [h2], .inr (by omega), fun j hj => ?_⟩
          cases j with
          | zero => simpa using hb
          | succ j =>
            have := h4 j (by simpa using hj)
            simpa [Nat.add_assoc, Nat.add_comm 1 j] using this
        · exact .inr (.inl ⟨by simp [readCells, hi, hb, h1], by omega⟩)
        · exact .inr (.inr ⟨by simp [readCells, hi, hb, h1], j + 1, by omega,
            by simpa [Nat.add_assoc, Nat.add_comm 1 j] using h3⟩)
    · exact .inr (.inl ⟨by simp [readCells, hi], by omega⟩)

/-- Reading is decided by the cells read, whatever the others hold. -/
theorem readCells_congr {P : Params} {m m' : Memory} {i n : Nat}
    (h : ∀ j, j < n → m.read (i + j) = m'.read (i + j)) : m.readCells P i n = m'.readCells P i n := by
  induction n generalizing i with
  | zero => rfl
  | succ n ih =>
    have h0 : m.read i = m'.read i := by simpa using h 0 (by omega)
    have ht : m.readCells P (i + 1) n = m'.readCells P (i + 1) n := by
      refine ih fun j hj => ?_
      simpa [Nat.add_assoc, Nat.add_comm 1 j] using h (j + 1) (by omega)
    simp [readCells, h0, ht]

end Sys2Proof.Machine.Memory
end

