-- ==== Sys2Proof/Laws/State.lean ====
section
/-! SUPPORT. The fields of a state after each named update: one lemma per field per update, so that no later proof
unfolds a record update. -/

namespace Sys2Proof.Machine.State

variable (s : State)

@[simp] theorem emitTx_buf (rs : List Response) : (s.emitTx rs).buf = s.buf := rfl
@[simp] theorem emitTx_filled (rs : List Response) : (s.emitTx rs).filled = s.filled := rfl
@[simp] theorem emitTx_desynced (rs : List Response) : (s.emitTx rs).desynced = s.desynced := rfl
@[simp] theorem emitTx_txOut (rs : List Response) : (s.emitTx rs).txOut = rs := rfl
@[simp] theorem emitTx_rxOut (rs : List Response) : (s.emitTx rs).rxOut = s.rxOut := rfl
@[simp] theorem emitTx_decOut (rs : List Response) : (s.emitTx rs).decOut = s.decOut := rfl
@[simp] theorem emitTx_owner (rs : List Response) : (s.emitTx rs).owner = s.owner := rfl
@[simp] theorem emitTx_pending (rs : List Response) : (s.emitTx rs).pending = s.pending := rfl

@[simp] theorem emitRx_buf (ev : Event) : (s.emitRx ev).buf = s.buf := rfl
@[simp] theorem emitRx_filled (ev : Event) : (s.emitRx ev).filled = s.filled := rfl
@[simp] theorem emitRx_desynced (ev : Event) : (s.emitRx ev).desynced = s.desynced := rfl
@[simp] theorem emitRx_txOut (ev : Event) : (s.emitRx ev).txOut = s.txOut := rfl
@[simp] theorem emitRx_rxOut (ev : Event) : (s.emitRx ev).rxOut = some ev := rfl
@[simp] theorem emitRx_decOut (ev : Event) : (s.emitRx ev).decOut = s.decOut := rfl
@[simp] theorem emitRx_owner (ev : Event) : (s.emitRx ev).owner = s.owner := rfl
@[simp] theorem emitRx_pending (ev : Event) : (s.emitRx ev).pending = s.pending := rfl

@[simp] theorem emitDec_buf (r : Result Frame) : (s.emitDec r).buf = s.buf := rfl
@[simp] theorem emitDec_filled (r : Result Frame) : (s.emitDec r).filled = s.filled := rfl
@[simp] theorem emitDec_desynced (r : Result Frame) : (s.emitDec r).desynced = s.desynced := rfl
@[simp] theorem emitDec_txOut (r : Result Frame) : (s.emitDec r).txOut = s.txOut := rfl
@[simp] theorem emitDec_rxOut (r : Result Frame) : (s.emitDec r).rxOut = s.rxOut := rfl
@[simp] theorem emitDec_decOut (r : Result Frame) : (s.emitDec r).decOut = some r := rfl
@[simp] theorem emitDec_owner (r : Result Frame) : (s.emitDec r).owner = s.owner := rfl
@[simp] theorem emitDec_pending (r : Result Frame) : (s.emitDec r).pending = s.pending := rfl

@[simp] theorem append_buf (b : Byte) : (s.append b).buf = s.buf.write s.filled b := rfl
@[simp] theorem append_filled (b : Byte) : (s.append b).filled = s.filled + 1 := rfl
@[simp] theorem append_desynced (b : Byte) : (s.append b).desynced = s.desynced := rfl
@[simp] theorem append_txOut (b : Byte) : (s.append b).txOut = s.txOut := rfl
@[simp] theorem append_rxOut (b : Byte) : (s.append b).rxOut = s.rxOut := rfl
@[simp] theorem append_decOut (b : Byte) : (s.append b).decOut = s.decOut := rfl
@[simp] theorem append_owner (b : Byte) : (s.append b).owner = s.owner := rfl
@[simp] theorem append_pending (b : Byte) : (s.append b).pending = s.pending := rfl

@[simp] theorem emptyLine_buf : s.emptyLine.buf = s.buf := rfl
@[simp] theorem emptyLine_filled : s.emptyLine.filled = 0 := rfl
@[simp] theorem emptyLine_desynced : s.emptyLine.desynced = s.desynced := rfl
@[simp] theorem emptyLine_txOut : s.emptyLine.txOut = s.txOut := rfl
@[simp] theorem emptyLine_rxOut : s.emptyLine.rxOut = s.rxOut := rfl
@[simp] theorem emptyLine_decOut : s.emptyLine.decOut = s.decOut := rfl
@[simp] theorem emptyLine_owner : s.emptyLine.owner = s.owner := rfl
@[simp] theorem emptyLine_pending : s.emptyLine.pending = s.pending := rfl

@[simp] theorem setDesynced_buf : s.setDesynced.buf = s.buf := rfl
@[simp] theorem setDesynced_filled : s.setDesynced.filled = s.filled := rfl
@[simp] theorem setDesynced_desynced : s.setDesynced.desynced = true := rfl
@[simp] theorem setDesynced_txOut : s.setDesynced.txOut = s.txOut := rfl
@[simp] theorem setDesynced_rxOut : s.setDesynced.rxOut = s.rxOut := rfl
@[simp] theorem setDesynced_decOut : s.setDesynced.decOut = s.decOut := rfl
@[simp] theorem setDesynced_owner : s.setDesynced.owner = s.owner := rfl
@[simp] theorem setDesynced_pending : s.setDesynced.pending = s.pending := rfl

@[simp] theorem clearDesynced_buf : s.clearDesynced.buf = s.buf := rfl
@[simp] theorem clearDesynced_filled : s.clearDesynced.filled = s.filled := rfl
@[simp] theorem clearDesynced_desynced : s.clearDesynced.desynced = false := rfl
@[simp] theorem clearDesynced_txOut : s.clearDesynced.txOut = s.txOut := rfl
@[simp] theorem clearDesynced_rxOut : s.clearDesynced.rxOut = s.rxOut := rfl
@[simp] theorem clearDesynced_decOut : s.clearDesynced.decOut = s.decOut := rfl
@[simp] theorem clearDesynced_owner : s.clearDesynced.owner = s.owner := rfl
@[simp] theorem clearDesynced_pending : s.clearDesynced.pending = s.pending := rfl

@[simp] theorem endLine_buf (ev : Event) : (s.endLine ev).buf = s.buf := rfl
@[simp] theorem endLine_filled (ev : Event) : (s.endLine ev).filled = 0 := rfl
@[simp] theorem endLine_desynced (ev : Event) : (s.endLine ev).desynced = false := rfl
@[simp] theorem endLine_txOut (ev : Event) : (s.endLine ev).txOut = s.txOut := rfl
@[simp] theorem endLine_rxOut (ev : Event) : (s.endLine ev).rxOut = some ev := rfl
@[simp] theorem endLine_decOut (ev : Event) : (s.endLine ev).decOut = s.decOut := rfl
@[simp] theorem endLine_owner (ev : Event) : (s.endLine ev).owner = s.owner := rfl
@[simp] theorem endLine_pending (ev : Event) : (s.endLine ev).pending = s.pending := rfl

@[simp] theorem resetBlock_buf : s.resetBlock.buf = [] := rfl
@[simp] theorem resetBlock_filled : s.resetBlock.filled = 0 := rfl
@[simp] theorem resetBlock_desynced : s.resetBlock.desynced = false := rfl
@[simp] theorem resetBlock_txOut : s.resetBlock.txOut = s.txOut := rfl
@[simp] theorem resetBlock_rxOut : s.resetBlock.rxOut = none := rfl
@[simp] theorem resetBlock_decOut : s.resetBlock.decOut = s.decOut := rfl
@[simp] theorem resetBlock_owner : s.resetBlock.owner = none := rfl
@[simp] theorem resetBlock_pending : s.resetBlock.pending = s.pending := rfl

@[simp] theorem withPending_buf (ops : List HostOp) : (s.withPending ops).buf = s.buf := rfl
@[simp] theorem withPending_filled (ops : List HostOp) : (s.withPending ops).filled = s.filled := rfl
@[simp] theorem withPending_desynced (ops : List HostOp) : (s.withPending ops).desynced = s.desynced := rfl
@[simp] theorem withPending_txOut (ops : List HostOp) : (s.withPending ops).txOut = s.txOut := rfl
@[simp] theorem withPending_rxOut (ops : List HostOp) : (s.withPending ops).rxOut = s.rxOut := rfl
@[simp] theorem withPending_decOut (ops : List HostOp) : (s.withPending ops).decOut = s.decOut := rfl
@[simp] theorem withPending_owner (ops : List HostOp) : (s.withPending ops).owner = s.owner := rfl
@[simp] theorem withPending_pending (ops : List HostOp) : (s.withPending ops).pending = ops := rfl

@[simp] theorem rxMode_of_desynced (h : s.desynced = true) : s.rxMode = .discarding := by simp [rxMode, h]

@[simp] theorem rxMode_of_not_desynced (h : s.desynced = false) : s.rxMode = .accumulating := by simp [rxMode, h]

theorem endLine_eq (ev : Event) :
    s.endLine ev = { s with filled := 0, desynced := false, rxOut := some ev } := rfl

/-- A presentation is taken exactly when its agent is the host or there is none yet, and its agent is then the host. -/
theorem claim_eq_some {s t : State} {a : Nat} :
    s.claim a = some t ↔ (s.owner = none ∨ s.owner = some a) ∧ t = { s with owner := some a } := by
  cases ho : s.owner with
  | none => simp [claim, ho, eq_comm]
  | some o =>
    by_cases e : o = a
    · subst e
      have hs : s = { s with owner := some o } := by rw [← ho]
      simp only [claim, ho, if_true, Option.some.injEq, or_true, true_and]
      exact ⟨fun h => h ▸ hs, fun h => hs.trans h.symm⟩
    · simp [claim, ho, e]

/-- A presentation is not taken exactly when another agent is the host. -/
theorem claim_eq_none {s : State} {a : Nat} : s.claim a = none ↔ ∃ o, s.owner = some o ∧ o ≠ a := by
  cases ho : s.owner <;> simp [claim, ho]

end Sys2Proof.Machine.State
end

