-- ==== Sys2Proof/Laws/Exec.lean ====
section
/-! SUPPORT. What each family of instructions, and a step, can do: the lemmas a proof cites in place of unfolding. -/

namespace Sys2Proof.Machine

/-- A transmit instruction puts responses that depend on it alone on the transmit port, and does nothing else. -/
theorem exec_transmits {i : Instr} (h : transmits i = true) : ∃ rs, ∀ s, exec i s = .next (s.emitTx rs) := by
  cases i with
  | encStd id len data => exact ⟨_, fun _ => rfl⟩
  | encExt id len data => exact ⟨_, fun _ => rfl⟩
  | encSetup rate => exact ⟨_, fun _ => rfl⟩
  | encOpen => exact ⟨_, fun _ => rfl⟩
  | encClose => exact ⟨_, fun _ => rfl⟩
  | openChannel r => exact ⟨_, fun _ => rfl⟩
  | encReserved op => simp [transmits] at h
  | rxCr => simp [transmits] at h
  | rxBel => simp [transmits] at h
  | rxOther b => simp [transmits] at h
  | decStd rest => simp [transmits] at h
  | decExt rest => simp [transmits] at h
  | decSetup rest => simp [transmits] at h
  | decOpen rest => simp [transmits] at h
  | decClose rest => simp [transmits] at h
  | decOther line => simp [transmits] at h

/-- A Line Decoder instruction shows a result that depends on it alone, and does nothing else. -/
theorem exec_decodesLine {i : Instr} (h : decodesLine i = true) : ∃ r, ∀ s, exec i s = .next (s.emitDec r) := by
  cases i with
  | decStd rest => exact ⟨_, fun _ => rfl⟩
  | decExt rest => exact ⟨_, fun _ => rfl⟩
  | decSetup rest => exact ⟨_, fun _ => rfl⟩
  | decOpen rest => exact ⟨_, fun _ => rfl⟩
  | decClose rest => exact ⟨_, fun _ => rfl⟩
  | decOther line => exact ⟨_, fun _ => rfl⟩
  | encStd id len data => simp [decodesLine] at h
  | encExt id len data => simp [decodesLine] at h
  | encSetup rate => simp [decodesLine] at h
  | encOpen => simp [decodesLine] at h
  | encClose => simp [decodesLine] at h
  | openChannel r => simp [decodesLine] at h
  | encReserved op => simp [decodesLine] at h
  | rxCr => simp [decodesLine] at h
  | rxBel => simp [decodesLine] at h
  | rxOther b => simp [decodesLine] at h

/-- What RX.CR can do: end the line with an event that is not `None`, or stop because the line cannot be read. -/
theorem rxCr_cases (P : Params) (s : State) :
    (s.desynced = true ∧ rxCr P s = .next (s.endLine (.discard .overflowed))) ∨
    (s.desynced = false ∧ s.filled < P.minValid ∧ rxCr P s = .next (s.endLine (.discard .tooShort))) ∨
    (s.desynced = false ∧ P.minValid ≤ s.filled ∧
      ∃ L, s.line P = .ok L ∧ rxCr P s = .next (s.endLine (eventOfDecode (decodeLine L)))) ∨
    (s.desynced = false ∧ P.minValid ≤ s.filled ∧ ∃ f, s.line P = .error f ∧ rxCr P s = .fault f) := by
  cases hd : s.desynced with
  | true => exact .inl ⟨rfl, by simp [rxCr, State.rxMode, hd]⟩
  | false =>
    by_cases hf : s.filled < P.minValid
    · exact .inr (.inl ⟨rfl, hf, by simp [rxCr, State.rxMode, hd, hf]⟩)
    · cases hL : s.line P with
      | ok L =>
        exact .inr (.inr (.inl ⟨rfl, by omega, L, rfl, by simp [rxCr, State.rxMode, hd, hf, hL]⟩))
      | error f =>
        exact .inr (.inr (.inr ⟨rfl, by omega, f, rfl, by simp [rxCr, State.rxMode, hd, hf, hL]⟩))

/-- The event of a decoded line is never `None`. -/
theorem eventOfDecode_ne_none (r : Result Frame) : eventOfDecode r ≠ .none := by
  cases r <;> simp [eventOfDecode]

/-- A next state of RX.CR: the line is ended with some event other than `None`. -/
theorem rxCr_next {P : Params} {s t : State} (h : rxCr P s = .next t) : ∃ ev, ev ≠ .none ∧ t = s.endLine ev := by
  rcases rxCr_cases P s with ⟨_, e⟩ | ⟨_, _, e⟩ | ⟨_, _, L, _, e⟩ | ⟨_, _, f, _, e⟩ <;> rw [e] at h
  · exact ⟨_, by simp, (Host.Outcome.next.inj h).symm⟩
  · exact ⟨_, by simp, (Host.Outcome.next.inj h).symm⟩
  · exact ⟨_, eventOfDecode_ne_none _, (Host.Outcome.next.inj h).symm⟩
  · simp at h

/-- A next state of RX.BEL, under either policy. -/
theorem rxBel_next {P : Params} {s t : State} (h : rxBel P s = .next t) : ∃ ev, ev ≠ .none ∧ t = s.endLine ev := by
  unfold rxBel at h
  split at h
  · exact ⟨_, by simp, (Host.Outcome.next.inj h).symm⟩
  · exact rxCr_next h

/-- What RX.other can do: drop (R166), append (R164), overflow (R165), or stop beyond the capacity. -/
theorem rxOther_cases (P : Params) (b : Byte) (s : State) :
    (s.desynced = true ∧ rxOther P b s = .next (s.emitRx .none)) ∨
    (s.desynced = false ∧ s.filled < P.capacity ∧ rxOther P b s = .next ((s.append b).emitRx .none)) ∨
    (s.desynced = false ∧ s.filled = P.capacity ∧ rxOther P b s = .next (s.setDesynced.emitRx .none)) ∨
    (s.desynced = false ∧ P.capacity < s.filled ∧ rxOther P b s = .fault .noSuchCell) := by
  cases hd : s.desynced with
  | true => exact .inl ⟨rfl, by simp [rxOther, State.rxMode, hd]⟩
  | false =>
    rcases Nat.lt_trichotomy s.filled P.capacity with h | h | h
    · exact .inr (.inl ⟨rfl, h, by simp [rxOther, State.rxMode, hd, h]⟩)
    · exact .inr (.inr (.inl ⟨rfl, h, by simp [rxOther, State.rxMode, hd, h]⟩))
    · refine .inr (.inr (.inr ⟨rfl, h, ?_⟩))
      have h1 : ¬ s.filled < P.capacity := by omega
      have h2 : s.filled ≠ P.capacity := by omega
      simp [rxOther, State.rxMode, hd, h1, h2]

/-- What an instruction of the receive path can do to the state: end the line or take a byte in. It leaves the
transmit and decoder ports, the owner and the pending presentations as they were. -/
theorem exec_receives {i : Instr} {s t : State} (hi : receives i = true) (h : exec i s = .next t) :
    (∃ ev, ev ≠ .none ∧ t = s.endLine ev ∧ (i = .rxCr ∨ i = .rxBel)) ∨
    (∃ b, i = .rxOther b ∧ ((s.desynced = true ∧ t = s.emitRx .none) ∨
      (s.desynced = false ∧ s.filled < params.capacity ∧ t = (s.append b).emitRx .none) ∨
      (s.desynced = false ∧ s.filled = params.capacity ∧ t = s.setDesynced.emitRx .none))) := by
  cases i with
  | rxCr =>
    obtain ⟨ev, h1, h2⟩ := rxCr_next (P := params) h
    exact .inl ⟨ev, h1, h2, .inl rfl⟩
  | rxBel =>
    obtain ⟨ev, h1, h2⟩ := rxBel_next (P := params) h
    exact .inl ⟨ev, h1, h2, .inr rfl⟩
  | rxOther b =>
    refine .inr ⟨b, rfl, ?_⟩
    change rxOther params b s = .next t at h
    rcases rxOther_cases params b s with ⟨h1, e⟩ | ⟨h1, h2, e⟩ | ⟨h1, h2, e⟩ | ⟨h1, h2, e⟩ <;> rw [e] at h
    · exact .inl ⟨h1, (Host.Outcome.next.inj h).symm⟩
    · exact .inr (.inl ⟨h1, h2, (Host.Outcome.next.inj h).symm⟩)
    · exact .inr (.inr ⟨h1, h2, (Host.Outcome.next.inj h).symm⟩)
    · simp at h
  | encStd id len data => simp [receives] at hi
  | encExt id len data => simp [receives] at hi
  | encSetup rate => simp [receives] at hi
  | encOpen => simp [receives] at hi
  | encClose => simp [receives] at hi
  | openChannel r => simp [receives] at hi
  | encReserved op => simp [receives] at hi
  | decStd rest => simp [receives] at hi
  | decExt rest => simp [receives] at hi
  | decSetup rest => simp [receives] at hi
  | decOpen rest => simp [receives] at hi
  | decClose rest => simp [receives] at hi
  | decOther line => simp [receives] at hi

/-- Every instruction belongs to one of the three paths, or is a reserved op code. -/
theorem instr_path (i : Instr) :
    transmits i = true ∨ receives i = true ∨ decodesLine i = true ∨ ∃ op, i = .encReserved op := by
  cases i <;> simp [transmits, receives, decodesLine]

/-- What a step can do. -/
theorem step_cases (s : State) :
    (s.pending = [] ∧ step s = .next s) ∨
    (∃ rest, s.pending = .reset :: rest ∧ step s = .next (s.withPending rest).resetBlock) ∨
    (∃ a w rest, s.pending = .port a w :: rest ∧ (s.withPending rest).claim a = none ∧
      step s = .refused .secondHost) ∨
    (∃ a w rest t, s.pending = .port a w :: rest ∧ (s.withPending rest).claim a = some t ∧
      step s = exec (decode w) t) := by
  cases hp : s.pending with
  | nil => exact .inl ⟨rfl, by simp [step, hp]⟩
  | cons op rest =>
    cases op with
    | reset => exact .inr (.inl ⟨rest, rfl, by simp [step, hp]⟩)
    | port a w =>
      cases hc : (s.withPending rest).claim a with
      | none => exact .inr (.inr (.inl ⟨a, w, rest, rfl, hc, by simp [step, hp, hc]⟩))
      | some t => exact .inr (.inr (.inr ⟨a, w, rest, t, rfl, hc, by simp [step, hp, hc]⟩))

end Sys2Proof.Machine
end

