-- ==== Sys2Proof/Laws/Channel.lean ====
section
/-! SUPPORT. The receive step and the feeding of a string: what they do, one case for each rule. -/

namespace Sys2Proof.Machine

theorem rxStep_of_next {b : Byte} {s t : State} (h : exec (decode (.rx b)) s = .next t) :
    rxStep b s = .next (t, t.rxOut.getD .none) := by
  simp [rxStep, h]

/-- What a receive step can do (R161): a delimiter ends the line with an event; any other byte gives `None` and is
dropped, appended, or overflows the buffer. -/
theorem rxStep_cases {b : Byte} {s t : State} {ev : Event} (h : rxStep b s = .next (t, ev)) :
    ((b = Config.cr ∨ b = Config.bel) ∧ ev ≠ .none ∧ t = s.endLine ev) ∨
    (LineByte b ∧ ev = .none ∧ ((s.desynced = true ∧ t = s.emitRx .none) ∨
      (s.desynced = false ∧ s.filled < params.capacity ∧ t = (s.append b).emitRx .none) ∨
      (s.desynced = false ∧ s.filled = params.capacity ∧ t = s.setDesynced.emitRx .none))) := by
  unfold rxStep at h
  rcases decodeRx_cases b with ⟨hb, e⟩ | ⟨hb, e⟩ | ⟨h1, h2, e⟩
  · have e : decode (.rx b) = .rxCr := e
    rw [e] at h
    cases hx : exec .rxCr s <;> rw [hx] at h <;> simp at h
    obtain ⟨ev', hne, rfl⟩ := rxCr_next (P := params) hx
    obtain ⟨rfl, rfl⟩ := h
    exact .inl ⟨.inl hb, by simpa using hne, by simp⟩
  · have e : decode (.rx b) = .rxBel := e
    rw [e] at h
    cases hx : exec .rxBel s <;> rw [hx] at h <;> simp at h
    obtain ⟨ev', hne, rfl⟩ := rxBel_next (P := params) hx
    obtain ⟨rfl, rfl⟩ := h
    exact .inl ⟨.inr hb, by simpa using hne, by simp⟩
  · have e : decode (.rx b) = .rxOther b := e
    rw [e] at h
    have hx : exec (.rxOther b) s = rxOther params b s := rfl
    rw [hx] at h
    rcases rxOther_cases params b s with ⟨hd, e⟩ | ⟨hd, hf, e⟩ | ⟨hd, hf, e⟩ | ⟨hd, hf, e⟩ <;> rw [e] at h <;>
      simp at h <;> obtain ⟨rfl, rfl⟩ := h
    · exact .inr ⟨⟨h1, h2⟩, rfl, .inl ⟨hd, rfl⟩⟩
    · exact .inr ⟨⟨h1, h2⟩, rfl, .inr (.inl ⟨hd, hf, rfl⟩)⟩
    · exact .inr ⟨⟨h1, h2⟩, rfl, .inr (.inr ⟨hd, hf, rfl⟩)⟩

@[simp] theorem rxFeed_nil (s : State) : rxFeed [] s = .next (s, []) := rfl

/-- Feeding one more byte in front. -/
theorem rxFeed_cons_next {b : Byte} {bs : List Byte} {s t u : State} {ev : Event} {evs : List Event}
    (h : rxStep b s = .next (t, ev)) (hs : rxFeed bs t = .next (u, evs)) :
    rxFeed (b :: bs) s = .next (u, ev :: evs) := by
  simp [rxFeed, h, hs]

/-- What feeding a first byte and the rest can give. -/
theorem rxFeed_cons_cases {b : Byte} {bs : List Byte} {s u : State} {es : List Event}
    (h : rxFeed (b :: bs) s = .next (u, es)) :
    ∃ t ev evs, rxStep b s = .next (t, ev) ∧ rxFeed bs t = .next (u, evs) ∧ es = ev :: evs := by
  simp only [rxFeed] at h
  cases hs : rxStep b s with
  | next p =>
    obtain ⟨t, ev⟩ := p
    simp only [hs] at h
    cases hb : rxFeed bs t with
    | next p =>
      obtain ⟨v, evs⟩ := p
      simp only [hb, Host.Outcome.next.injEq, Prod.mk.injEq] at h
      exact ⟨t, ev, evs, rfl, by rw [hb, h.1], h.2.symm⟩
    | fault f => simp [hb] at h
    | refused r => simp [hb] at h
  | fault f => simp [hs] at h
  | refused r => simp [hs] at h

/-- Feeding one string after another is feeding the two in a row. -/
theorem rxFeed_append {xs ys : List Byte} {s t u : State} {es fs : List Event} (hx : rxFeed xs s = .next (t, es))
    (hy : rxFeed ys t = .next (u, fs)) : rxFeed (xs ++ ys) s = .next (u, es ++ fs) := by
  induction xs generalizing s es with
  | nil =>
    cases hx
    exact hy
  | cons b bs ih =>
    obtain ⟨v, ev, evs, hs, hb, rfl⟩ := rxFeed_cons_cases hx
    exact rxFeed_cons_next hs (ih hb)

/-- What one `read` can do (R215): it takes a first part of the transport's answers, at least one unless there is none,
feeds their bytes in order, and returns at an event that is not `None`, or without one at an answer that is no byte or
at the end of the script. -/
theorem readLoop_cases {script rest : List TransportRead} {s t : State} {r : HostResult Frame}
    (h : readLoop script s = .next (t, rest, r)) :
    (∃ bs, script = bs.map .byte ∧ rest = [] ∧ r = .err .wouldBlock ∧
      rxFeed bs s = .next (t, List.replicate bs.length .none)) ∨
    (∃ bs, rxFeed bs s = .next (t, List.replicate bs.length .none) ∧
      ((script = bs.map .byte ++ .noData :: rest ∧ r = .err .wouldBlock) ∨
       ∃ e, script = bs.map .byte ++ .ioError e :: rest ∧ r = .err (.io e))) ∨
    (∃ bs b ev, script = bs.map .byte ++ .byte b :: rest ∧
      rxFeed (bs ++ [b]) s = .next (t, List.replicate bs.length .none ++ [ev]) ∧
      ((∃ f, ev = .frame f ∧ r = .ok f) ∨ (∃ c, ev = .decodeError c ∧ r = .err (.code c)) ∨
       ∃ d, ev = .discard d ∧ r = .err .wouldBlock)) := by
  induction script generalizing s with
  | nil =>
    cases h
    exact .inl ⟨[], rfl, rfl, rfl, rfl⟩
  | cons a script ih =>
    cases a with
    | noData =>
      cases h
      exact .inr (.inl ⟨[], rfl, .inl ⟨rfl, rfl⟩⟩)
    | ioError e =>
      cases h
      exact .inr (.inl ⟨[], rfl, .inr ⟨e, rfl, rfl⟩⟩)
    | byte b =>
      cases hs : rxStep b s with
      | fault f => simp [readLoop, hs] at h
      | refused q => simp [readLoop, hs] at h
      | next p =>
        obtain ⟨v, ev⟩ := p
        simp only [readLoop, hs] at h
        cases ev with
        | none =>
          rcases ih h with ⟨bs, rfl, rfl, rfl, hf⟩ | ⟨bs, hf, hr⟩ | ⟨bs, d, ev, rfl, hf, hr⟩
          · exact .inl ⟨b :: bs, rfl, rfl, rfl, rxFeed_cons_next hs hf⟩
          · refine .inr (.inl ⟨b :: bs, rxFeed_cons_next hs hf, ?_⟩)
            rcases hr with ⟨rfl, rfl⟩ | ⟨e, rfl, rfl⟩
            · exact .inl ⟨rfl, rfl⟩
            · exact .inr ⟨e, rfl, rfl⟩
          · exact .inr (.inr ⟨b :: bs, d, ev, rfl, rxFeed_cons_next hs hf, hr⟩)
        | frame f =>
          cases h
          exact .inr (.inr ⟨[], b, _, rfl, rxFeed_cons_next hs rfl, .inl ⟨f, rfl, rfl⟩⟩)
        | decodeError c =>
          cases h
          exact .inr (.inr ⟨[], b, _, rfl, rxFeed_cons_next hs rfl, .inr (.inl ⟨c, rfl, rfl⟩)⟩)
        | discard d =>
          cases h
          exact .inr (.inr ⟨[], b, _, rfl, rxFeed_cons_next hs rfl, .inr (.inr ⟨d, rfl, rfl⟩)⟩)

end Sys2Proof.Machine
end

