-- ==== Sys2Proof/Laws/Result.lean ====
section
/-! SUPPORT. Sequencing of results. -/

namespace Sys2Proof.Result

variable {α β : Type}

@[simp] theorem bind_ok (v : α) (k : α → Result β) : (Result.ok v).bind k = k v := rfl

@[simp] theorem bind_err (c : ErrorCode) (k : α → Result β) : (Result.err c : Result α).bind k = .err c := rfl

@[simp] theorem map_ok (f : α → β) (v : α) : (Result.ok v).map f = .ok (f v) := rfl

@[simp] theorem map_err (f : α → β) (c : ErrorCode) : (Result.err c : Result α).map f = .err c := rfl

/-- A sequence succeeds exactly when both of its parts do. -/
theorem bind_eq_ok {r : Result α} {k : α → Result β} {w : β} :
    r.bind k = .ok w ↔ ∃ v, r = .ok v ∧ k v = .ok w := by
  cases r <;> simp

end Sys2Proof.Result
end

