-- ==== Sys2Proof/Laws/HexCodec.lean ====
section
/-! SUPPORT. The Hex Codec: a digit survives the trip through its byte, and the values of pairs and accumulations. -/

namespace Sys2Proof.Machine

@[simp] theorem digitToValue_valueToHexDigit (v : Nibble) : digitToValue (valueToHexDigit v) = .ok v := by
  revert v; decide

/-- An emitted digit is never a delimiter. -/
theorem valueToHexDigit_ne_delimiter (v : Nibble) :
    valueToHexDigit v ≠ Config.cr ∧ valueToHexDigit v ≠ Config.bel := by
  revert v; decide

/-- The only error of the digit decoder. -/
theorem digitToValue_err {b : Byte} {c : ErrorCode} (h : digitToValue b = .err c) : c = .malformedHex := by
  unfold digitToValue at h
  split_ifs at h
  cases h; rfl

/-- The value of an accumulation step, as a number: the digit is shifted in from the right. -/
theorem toNat_shiftIn {w : Nat} (acc : BitVec w) (d : Nibble) (hw : 4 ≤ w) (h : acc.toNat * 16 + 15 < 2 ^ w) :
    ((acc <<< 4) ||| d.setWidth w).toNat = acc.toNat * 16 + d.toNat := by
  have hd : d.toNat < 16 := d.isLt
  have h16 : (2 : Nat) ^ 4 ≤ 2 ^ w := Nat.pow_le_pow_right (by omega) hw
  have h1 : (acc <<< 4).toNat = 16 * acc.toNat := by
    rw [BitVec.toNat_shiftLeft, Nat.shiftLeft_eq, Nat.mod_eq_of_lt (by omega)]; ring
  have h2 : (d.setWidth w).toNat = d.toNat := by
    rw [BitVec.toNat_setWidth, Nat.mod_eq_of_lt (by omega)]
  have h3 := Nat.two_pow_add_eq_or_of_lt (i := 4) (b := d.toNat) (by omega) acc.toNat
  rw [BitVec.toNat_or, h1, h2, mul_comm]
  rw [mul_comm] at h3
  exact h3.symm

@[simp] theorem length_u16To3Hex (v : BitVec 16) : (u16To3Hex v).length = 3 := rfl

@[simp] theorem length_u32To8Hex (v : BitVec 32) : (u32To8Hex v).length = 8 := rfl

@[simp] theorem length_bytesToHexPairs (p : List Byte) : (bytesToHexPairs p).length = 2 * p.length := by
  induction p with
  | nil => rfl
  | cons x xs ih => simp [bytesToHexPairs, ih]; omega

/-- Every byte of a payload field is an emitted hex digit. -/
theorem mem_bytesToHexPairs {p : List Byte} {c : Byte} (h : c ∈ bytesToHexPairs p) : ∃ v, c = valueToHexDigit v := by
  induction p with
  | nil => simp [bytesToHexPairs] at h
  | cons x xs ih =>
    simp only [bytesToHexPairs, List.mem_cons] at h
    rcases h with h | h | h
    · exact ⟨_, h⟩
    · exact ⟨_, h⟩
    · exact ih h

theorem mem_u16To3Hex {v : BitVec 16} {c : Byte} (h : c ∈ u16To3Hex v) : ∃ d, c = valueToHexDigit d := by
  simp only [u16To3Hex, List.mem_cons, List.not_mem_nil, or_false] at h
  rcases h with h | h | h <;> exact ⟨_, h⟩

theorem mem_u32To8Hex {v : BitVec 32} {c : Byte} (h : c ∈ u32To8Hex v) : ∃ d, c = valueToHexDigit d := by
  obtain ⟨lsb, -, h⟩ := List.mem_map.mp h
  exact ⟨_, h.symm⟩

end Sys2Proof.Machine
end

