-- ==== Sys2Proof/Laws/Encoder.lean ====
section
/-! SUPPORT. The encoder: when it gives a line, and the shape of a frame's line. -/

namespace Sys2Proof.Machine

theorem frameLine_eq (k : Kind) (hexs : List Byte) (len : Nat) (p : List Byte) :
    frameLine k hexs len p =
      commandByte (frameCommand k) :: (hexs ++ (lengthDigit len :: (bytesToHexPairs p ++ [Config.cr]))) := by
  simp [frameLine]

theorem length_payloadSlice {data : Payload} {len : Nat} (h : len ≤ 8) : (payloadSlice data len).length = len := by
  simp [payloadSlice]; omega

/-- EncStd gives a line exactly for an identifier and a length in range, and then this one. -/
theorem encodeStd_eq_ok {id : BitVec 32} {len : Nat} {data : Payload} {l : List Byte} :
    encodeStd id len data = .ok l ↔ id.toNat ≤ Config.stdIdMax ∧ len ≤ Config.maxLen ∧
      l = frameLine .std (u16To3Hex (id.setWidth 16)) len (payloadSlice data len) := by
  unfold encodeStd
  by_cases h1 : Config.stdIdMax < id.toNat
  · rw [if_pos h1]
    exact ⟨fun h => Result.noConfusion rfl (heq_of_eq h), fun h => absurd h.1 (by omega)⟩
  · by_cases h2 : Config.maxLen < len
    · rw [if_neg h1, if_pos h2]
      exact ⟨fun h => Result.noConfusion rfl (heq_of_eq h), fun h => absurd h.2.1 (by omega)⟩
    · rw [if_neg h1, if_neg h2]
      exact ⟨fun h => ⟨by omega, by omega, (Result.ok.inj h).symm⟩, fun h => by rw [h.2.2]⟩

/-- EncExt gives a line exactly for an identifier and a length in range, and then this one. -/
theorem encodeExt_eq_ok {id : BitVec 32} {len : Nat} {data : Payload} {l : List Byte} :
    encodeExt id len data = .ok l ↔ id.toNat ≤ Config.extIdMax ∧ len ≤ Config.maxLen ∧
      l = frameLine .ext (u32To8Hex id) len (payloadSlice data len) := by
  unfold encodeExt
  by_cases h1 : Config.extIdMax < id.toNat
  · rw [if_pos h1]
    exact ⟨fun h => Result.noConfusion rfl (heq_of_eq h), fun h => absurd h.1 (by omega)⟩
  · by_cases h2 : Config.maxLen < len
    · rw [if_neg h1, if_pos h2]
      exact ⟨fun h => Result.noConfusion rfl (heq_of_eq h), fun h => absurd h.2.1 (by omega)⟩
    · rw [if_neg h1, if_neg h2]
      exact ⟨fun h => ⟨by omega, by omega, (Result.ok.inj h).symm⟩, fun h => by rw [h.2.2]⟩

end Sys2Proof.Machine
end

