-- ==== Sys2Proof/Laws/PerInstr.lean ====
section
/-! SUPPORT. The statements made once per instruction: an instruction that is well formed comes back from its own port
value. -/

namespace Sys2Proof.Laws.EncodedBack

/-- A well-formed instruction is what the decoder reads from its encoding. -/
def Statement (i : Instr) : Prop :=
  i.wellFormed = true → decode (encode i) = i

theorem encStd (id : BitVec 32) (len : Nat) (data : Payload) : Statement (.encStd id len data) := fun _ => rfl

theorem encExt (id : BitVec 32) (len : Nat) (data : Payload) : Statement (.encExt id len data) := fun _ => rfl

theorem encSetup (rate : Nibble) : Statement (.encSetup rate) := fun _ => rfl

theorem encOpen : Statement .encOpen := fun _ => rfl

theorem encClose : Statement .encClose := fun _ => rfl

theorem encReserved (op : BitVec 3) : Statement (.encReserved op) := by
  revert op; unfold Statement; decide

theorem openChannel (r : BitRate) : Statement (.openChannel r) := fun _ => rfl

theorem rxCr : Statement .rxCr := fun _ => rfl

theorem rxBel : Statement .rxBel := fun _ => rfl

theorem rxOther (b : Byte) : Statement (.rxOther b) := fun h => by
  simp only [Instr.wellFormed, Bool.and_eq_true, decide_eq_true_eq] at h
  simp [encode, decode, decodeRx, h.1, h.2]

theorem decStd (rest : List Byte) : Statement (.decStd rest) := fun _ => rfl

theorem decExt (rest : List Byte) : Statement (.decExt rest) := fun _ => rfl

theorem decSetup (rest : List Byte) : Statement (.decSetup rest) := fun _ => rfl

theorem decOpen (rest : List Byte) : Statement (.decOpen rest) := fun _ => rfl

theorem decClose (rest : List Byte) : Statement (.decClose rest) := fun _ => rfl

theorem decOther (line : List Byte) : Statement (.decOther line) := fun h => by
  cases line with
  | nil => rfl
  | cons b rest =>
    simp only [Instr.wellFormed, Option.isNone_iff_eq_none] at h
    simp [encode, decode, decodeLineWord, h]

end Sys2Proof.Laws.EncodedBack
end

