-- ==== Sys2Proof/Tests/Slice0.lean ====
section
/-! SUPPORT. The model's own tests. The expected results are those of spec/95_test_vectors.md (its row is named at each
test) or are read off the tables of spec/30_encoding.md. Then, for each statement with hypotheses, a state and operands
that meet them together. -/

namespace Sys2Proof.Tests

open Sys2Proof.Machine Sys2Proof.Spec

/-- The bytes of ASCII characters (00_scope.md R19). -/
def bytes (cs : List Char) : List Byte :=
  cs.map fun c => BitVec.ofNat 8 c.toNat

/-- The next state of an outcome, if it has one. -/
def nextOf (o : Host.Outcome State Fault Refusal) : Option State :=
  match o with
  | .next s => some s
  | .fault _ => none
  | .refused _ => none

/-- The responses of a transmit instruction. -/
def responsesOf (i : Instr) : Option (List Response) :=
  (nextOf (exec i State.reset)).map State.txOut

/-- The result of a line presented to the Line Decoder, with its bytes written as characters. -/
def decodedOf (cs : List Char) : Option (Option (Result Frame)) :=
  (nextOf (exec (decode (.line (bytes cs))) State.reset)).map State.decOut

/-- A state with this line buffered. -/
def buffered (L : List Byte) : State :=
  { State.reset with buf := L.zipIdx.map fun e => (e.2, e.1), filled := L.length }

/-- The event of one receive step. -/
def eventOf (b : Byte) (s : State) : Option (Option Event) :=
  (nextOf (exec (decode (.rx b)) s)).map State.rxOut

/-- A state with one presentation. -/
def presented (op : HostOp) : State :=
  { State.reset with pending := [op] }

/-- Twenty-eight times `'A'`: a full buffer (95_test_vectors.md 2.3). -/
def fullOfA : State :=
  buffered (List.replicate 28 0x41)

/-- The payload of the source's examples (95_test_vectors.md S1). -/
def beef : Payload :=
  #v[0x0B, 0x0E, 0x0E, 0x0F, 0, 0, 0, 0]

def zeros : Payload :=
  #v[0, 0, 0, 0, 0, 0, 0, 0]

/-! ### Well-formedness: each check refuses an ill-formed term -/

theorem test_illFormed_reserved_code_four : (Instr.encReserved 4).wellFormed = false := by decide

theorem test_illFormed_other_byte_cr : (Instr.rxOther 0x0D).wellFormed = false := by decide

theorem test_illFormed_other_byte_bel : (Instr.rxOther 0x07).wellFormed = false := by decide

theorem test_illFormed_other_line_t : (Instr.decOther (bytes ['t', '1', '2', '3', '0'])).wellFormed = false := by decide

/-! ### Decoding: for each constructor a word from the spec's encoding (30_encoding.md R81, R99, R100) -/

theorem test_decode_encStd : decode (.tx ⟨0b000, 0x123, 4, beef, 0⟩) = .encStd 0x123 4 beef := by decide

theorem test_decode_encExt : decode (.tx ⟨0b001, 0x1ABCDEF1, 4, beef, 0⟩) = .encExt 0x1ABCDEF1 4 beef := by decide

theorem test_decode_encSetup : decode (.tx ⟨0b010, 0, 0, zeros, 0b0110⟩) = .encSetup 6 := by decide

theorem test_decode_encOpen : decode (.tx ⟨0b011, 0, 0, zeros, 0⟩) = .encOpen := by decide

theorem test_decode_encClose : decode (.tx ⟨0b100, 0, 0, zeros, 0⟩) = .encClose := by decide

theorem test_decode_encReserved : decode (.tx ⟨0b110, 0, 0, zeros, 0⟩) = .encReserved 6 := by decide

theorem test_decode_openChannel : decode (.openChannel .rate6) = .openChannel .rate6 := by decide

theorem test_decode_rxCr : decode (.rx 0b00001101) = .rxCr := by decide

theorem test_decode_rxBel : decode (.rx 0b00000111) = .rxBel := by decide

theorem test_decode_rxOther_lf : decode (.rx 0b00001010) = .rxOther 0x0A := by decide

theorem test_decode_decStd : decode (.line [0b01110100, 0x31]) = .decStd [0x31] := by decide

theorem test_decode_decExt : decode (.line [0b01010100, 0x31]) = .decExt [0x31] := by decide

theorem test_decode_decSetup : decode (.line [0b01010011, 0x36]) = .decSetup [0x36] := by decide

theorem test_decode_decOpen : decode (.line [0b01001111]) = .decOpen [] := by decide

theorem test_decode_decClose : decode (.line [0b01000011]) = .decClose [] := by decide

theorem test_decode_decOther_lowercase_s : decode (.line [0x73, 0x36]) = .decOther [0x73, 0x36] := by decide

theorem test_tableWord_encClose : decodeTableWord 8 4 = some .encClose := by decide

theorem test_tableWord_reserved : decodeTableWord 8 5 = some (.encReserved 5) := by decide

theorem test_tableWord_bel : decodeTableWord 8 7 = some .rxBel := by decide

theorem test_tableWord_decStd : decodeTableWord 8 0x74 = some (.decStd []) := by decide

theorem test_tableWord_runs_first :
    (nextOf (step (State.reset.withFetchWord 8 4))).map State.txOut = some [.ok (bytes ['C', '\r'])] := by decide

/-! ### The transmit path (95_test_vectors.md parts 1 and 2.2) -/

/-- S1. -/
theorem test_encStd_S1 : responsesOf (.encStd 0x123 4 beef) =
    some [.ok [0x74, 0x31, 0x32, 0x33, 0x34, 0x30, 0x42, 0x30, 0x45, 0x30, 0x45, 0x30, 0x46, 0x0D]] := by decide

/-- 2.2: the identifier is checked before the length. -/
theorem test_encStd_checks_identifier_first : responsesOf (.encStd 0x800 9 zeros) =
    some [.err .identifierOutOfRange] := by decide

/-- S4. -/
theorem test_encExt_S4 : responsesOf (.encExt 0x1ABCDEF1 0 zeros) =
    some [.ok [0x54, 0x31, 0x41, 0x42, 0x43, 0x44, 0x45, 0x46, 0x31, 0x30, 0x0D]] := by decide

/-- 2.2: `"T0000000180123456789ABCDEF\r"`. -/
theorem test_encExt_eight_bytes : responsesOf (.encExt 1 8 #v[0x01, 0x23, 0x45, 0x67, 0x89, 0xAB, 0xCD, 0xEF]) =
    some [.ok (bytes ['T', '0', '0', '0', '0', '0', '0', '0', '1', '8', '0', '1', '2', '3', '4', '5', '6', '7', '8', '9',
      'A', 'B', 'C', 'D', 'E', 'F', '\r'])] := by decide

/-- S8. -/
theorem test_encSetup_rate8 : responsesOf (.encSetup 8) = some [.ok [0x53, 0x38, 0x0D]] := by decide

/-- 2.2. -/
theorem test_encSetup_rate9 : responsesOf (.encSetup 9) = some [.err .invalidBitRate] := by decide

/-- S8. -/
theorem test_encOpen : responsesOf .encOpen = some [.ok [0x4F, 0x0D]] := by decide

/-- S8. -/
theorem test_encClose : responsesOf .encClose = some [.ok [0x43, 0x0D]] := by decide

/-- S8, P1: `53 36 0D 4F 0D`. -/
theorem test_openChannel_rate6 : responsesOf (.openChannel .rate6) =
    some [.ok [0x53, 0x36, 0x0D], .ok [0x4F, 0x0D]] := by decide

/-! ### The receive path (95_test_vectors.md 2.3) -/

/-- `"t1230\r"`: the smallest line that is decoded. -/
theorem test_rxCr_five_bytes : eventOf 0x0D (buffered (bytes ['t', '1', '2', '3', '0'])) =
    some (some (.frame ⟨.standard 0x123, 0, zeros⟩)) := by decide

/-- `"t123\r"`: the largest line that is discarded. -/
theorem test_rxCr_four_bytes : eventOf 0x0D (buffered (bytes ['t', '1', '2', '3'])) =
    some (some (.discard .tooShort)) := by decide

/-- `"t1230\a"`. -/
theorem test_rxBel_well_formed_line : eventOf 0x07 (buffered (bytes ['t', '1', '2', '3', '0'])) =
    some (some (.discard .aborted)) := by decide

/-- The example of R164: from reset, `'t'` gives `buf[0] = 0x74`, `filled = 1`. -/
theorem test_rxOther_first_byte : nextOf (exec (.rxOther 0x74) State.reset) =
    some { State.reset with buf := [(0, 0x74)], filled := 1, rxOut := some .none } := by decide

/-- The 29th `'A'`: state `(28, true, 28 × 'A')`. -/
theorem test_rxOther_overflow : nextOf (exec (.rxOther 0x41) fullOfA) =
    some { fullOfA with desynced := true, rxOut := some .none } := by decide

/-! ### The Line Decoder (95_test_vectors.md 2.4) -/

/-- S5. -/
theorem test_decStd_S5 : decodedOf ['t', '1', '2', '3', '4', '0', 'B', '0', 'E', '0', 'E', '0', 'F'] =
    some (some (.ok ⟨.standard 0x123, 4, beef⟩)) := by decide

/-- `"t8009"`: not `InvalidLength`. -/
theorem test_decStd_range_before_length : decodedOf ['t', '8', '0', '0', '9'] =
    some (some (.err .identifierOutOfRange)) := by decide

/-- `"T0000000180123456789ABCDEF"`. -/
theorem test_decExt_eight_bytes : decodedOf ['T', '0', '0', '0', '0', '0', '0', '0', '1', '8', '0', '1', '2', '3', '4',
    '5', '6', '7', '8', '9', 'A', 'B', 'C', 'D', 'E', 'F'] =
    some (some (.ok ⟨.extended 1, 8, #v[0x01, 0x23, 0x45, 0x67, 0x89, 0xAB, 0xCD, 0xEF]⟩)) := by decide

/-- `"TFFFFFFFF"`: the range check comes before the missing length digit. -/
theorem test_decExt_range_before_truncation : decodedOf ['T', 'F', 'F', 'F', 'F', 'F', 'F', 'F', 'F'] =
    some (some (.err .identifierOutOfRange)) := by decide

/-- `"S6000"`. -/
theorem test_decSetup : decodedOf ['S', '6', '0', '0', '0'] = some (some (.err .notDataFrame)) := by decide

/-- R182 corner case: `"Cxxxx"`. -/
theorem test_decClose : decodedOf ['C', 'x', 'x', 'x', 'x'] = some (some (.err .notDataFrame)) := by decide

/-- R182. -/
theorem test_decOpen : decodedOf ['O', '0', '0', '0', '0'] = some (some (.err .notDataFrame)) := by decide

/-- `"r1230"`. -/
theorem test_decOther : decodedOf ['r', '1', '2', '3', '0'] = some (some (.err .notDataFrame)) := by decide

/-! ### Values on the ports -/

/-- The constraints of R17. -/
theorem test_params_ok : params.Ok := by decide

/-- R46: what stands beyond `len` does not count. -/
theorem test_frameSame_ignores_the_tail :
    frameSame ⟨.standard 0x123, 1, #v[0xAB, 0, 0, 0, 0, 0, 0, 0]⟩ ⟨.standard 0x123, 1, #v[0xAB, 1, 2, 3, 4, 5, 6, 7]⟩ =
      true ∧
    frameSame ⟨.standard 1, 0, zeros⟩ ⟨.extended 1, 0, zeros⟩ = false := by decide

/-! ### The host operations (95_test_vectors.md 2.5) -/

/-- A channel fresh from reset over a transport with these answers to its reads and writes. -/
def channel (reads : List TransportRead) (writes : List TransportWrite) : Channel :=
  ⟨State.reset, ⟨reads, writes, []⟩⟩

/-- Read `"t12"` and then no data: would-block, state `(3, false, "t12")`. -/
theorem test_read_partial_line :
    (match (channel ((bytes ['t', '1', '2']).map .byte ++ [.noData]) []).read with
      | .next (c, r) => some (c.block.filled, c.block.desynced, c.block.buf, r)
      | .fault _ => none
      | .refused _ => none) =
    some (3, false, [(0, 0x74), (1, 0x31), (2, 0x32)], .err .wouldBlock) := by decide

/-- `write(Standard(0xBC), [])` returns 6 (R214), here over a transport that takes two bytes at a time at first. -/
theorem test_write_returns_six :
    (match (channel [] [.accept 2, .accept 0, .accept 1]).write (.standard 0xBC) [] with
      | .next (c, r) => some (c.transport.sent, r)
      | .fault _ => none
      | .refused _ => none) =
    some (bytes ['t', '0', 'B', 'C', '0', '\r'], .ok 6) := by decide

/-! ### Witnesses: states and operands that meet the hypotheses of each statement -/

theorem fullOfA_inv : fullOfA.Inv params where
  canonical := by decide
  within := by decide
  bounded := by decide
  full := by decide
  written := fun i hi => by
    have h : ∀ j : Fin 28, fullOfA.buf.read j.val = some 0x41 := by decide
    exact ⟨0x41, h ⟨i, hi⟩, by decide⟩

/-- A full buffer that has overflowed. -/
theorem overflowed_inv : ({ fullOfA with desynced := true } : State).Inv params where
  canonical := fullOfA_inv.canonical
  within := fullOfA_inv.within
  bounded := fullOfA_inv.bounded
  full := by decide
  written := fullOfA_inv.written

theorem witness_DecodeAndEncodeAgree :
    (Instr.encReserved 5).wellFormed = true ∧ (Instr.rxOther 0x0A).wellFormed = true ∧
    (Instr.decOther []).wellFormed = true ∧ (Instr.decOther [0x72]).wellFormed = true := by decide

theorem witness_EachReceiveByteSelectsOneOperation : (0x0C : Byte) ≠ 0x0D ∧ (0x0C : Byte) ≠ 0x07 := by decide

theorem witness_EachTransmitCodeSelectsItsOperation : (bareRequest 4).op = 4 ∧ 4 < (bareRequest 5).op := by decide

theorem witness_StepRunsTheDecodedInstruction_first :
    (presented (.port 3 (.tx (bareRequest 3)))).pending = .port 3 (.tx (bareRequest 3)) :: [] ∧
    (presented (.port 3 (.tx (bareRequest 3)))).owner = none := ⟨rfl, rfl⟩

theorem witness_StepRunsTheDecodedInstruction_owned :
    ({ presented (.port 3 (.rx 0x74)) with owner := some 3 } : State).pending = .port 3 (.rx 0x74) :: [] ∧
    ({ presented (.port 3 (.rx 0x74)) with owner := some 3 } : State).owner = some 3 := ⟨rfl, rfl⟩

theorem witness_FetchedTableWordRunsNext : decodeTableWord 8 0x07 = some .rxBel := by decide

theorem witness_ResetEventEmptiesTheLine :
    ({ fullOfA with pending := [.reset] } : State).pending = .reset :: [] ∧ State.reset.pending = [] := ⟨rfl, rfl⟩

theorem witness_SecondHostIsRefusedOnEveryPort :
    ({ presented (.port 1 (.rx 0x74)) with owner := some 0 } : State).pending = .port 1 (.rx 0x74) :: [] ∧
    ({ presented (.port 1 (.tx (bareRequest 3))) with owner := some 0 } : State).pending =
      .port 1 (.tx (bareRequest 3)) :: [] ∧
    ({ presented (.port 1 (.rx 0x74)) with owner := some 0 } : State).owner = some 0 ∧ (0 : Nat) ≠ 1 :=
  ⟨rfl, rfl, rfl, by decide⟩

theorem witness_DigitToValueIsTheTable : hexValue 0x66 = some 15 ∧ hexValue 0x67 = none := by decide

theorem witness_HexPairIsHighNibbleFirst :
    hexValue 0x66 = some 15 ∧ hexValue 0x46 = some 15 ∧ hexValue 0x47 = none := by decide

theorem witness_IdentifierDigitsAreMostSignificantFirst :
    (bytes ['7', 'F', 'f']).length = 3 ∧ (∀ c, c ∈ bytes ['7', 'F', 'f'] → (hexValue c).isSome = true) ∧
    (∃ c, c ∈ bytes ['1', '2', 'G'] ∧ hexValue c = none) ∧
    (∀ c, c ∈ bytes ['F', 'F', 'F', 'F', 'F', 'F', 'F', 'F'] → (hexValue c).isSome = true) ∧
    (∃ c, c ∈ bytes ['1', '2', '3', '4', '5', '6', '7', 'Z'] ∧ hexValue c = none) := by decide

theorem witness_HexDecodingInvertsHexEncoding : (0xFFF : BitVec 16).toNat ≤ 0xFFF := by decide

theorem witness_EncStdGivesTheStandardLine : (0x7FF : BitVec 32).toNat ≤ 0x7FF ∧ 8 ≤ 8 := by decide

theorem witness_EncExtGivesTheExtendedLine : (0x1FFFFFFF : BitVec 32).toNat ≤ 0x1FFFFFFF ∧ 8 ≤ 8 := by decide

theorem witness_EncodeRejectsLongPayload : (0x7FF : BitVec 32).toNat ≤ maxId .std ∧ 8 < 9 := by decide

theorem witness_EncodeRejectsIdentifierFirst :
    maxId .std < (0x800 : BitVec 32).toNat ∧ maxId .ext < (0x20000000 : BitVec 32).toNat := by decide

theorem witness_CommandLinesAreAsFormatted : (8 : Nibble).toNat ≤ 8 := by decide

theorem witness_SetupRejectsRateAboveEight : 8 < (9 : Nibble).toNat := by decide

theorem witness_ReservedTransmitCodesAreRefused :
    (presented (.port 0 (.tx (bareRequest 5)))).pending = .port 0 (.tx (bareRequest 5)) :: [] ∧
    (presented (.port 0 (.tx (bareRequest 5)))).owner = none ∧ 5 ≤ (bareRequest 5).op.toNat := ⟨rfl, rfl, by decide⟩

theorem witness_TransmitReadsRequestWritesResponse : transmits (.openChannel .rate0) = true := by decide

theorem witness_PayloadBeyondLengthIsNotRead :
    ∀ i (h : i < 8), i < 1 → (#v[0xAB, 0x11, 0x22, 0x33, 0x44, 0x55, 0x66, 0x77] : Payload)[i] =
      (#v[0xAB, 0, 0, 0, 0, 0, 0, 0] : Payload)[i] := fun i h hi => by
  obtain rfl : i = 0 := by omega
  rfl

theorem witness_EmittedLinesUseTheOutputAlphabet :
    transmits .encOpen = true ∧ exec .encOpen State.reset = .next (State.reset.emitTx [encodeOpen]) ∧
    .ok [0x4F, 0x0D] ∈ (State.reset.emitTx [encodeOpen]).txOut := ⟨rfl, rfl, by decide⟩

theorem witness_CarriageReturnEndsTheLine_full : fullOfA.desynced = false ∧ 4 < fullOfA.filled ∧ fullOfA.filled ≤ 28 ∧
    (List.replicate 28 (0x41 : Byte)).length = fullOfA.filled ∧
    (∀ i : Fin 28, fullOfA.buf.read i.val = some 0x41) ∧
    decodeLine (List.replicate 28 0x41) = .err .notDataFrame := by decide

theorem witness_CarriageReturnEndsTheLine_five :
    (buffered (bytes ['t', '1', '2', '3', '0'])).filled = 5 ∧
    (∀ i : Fin 5, (buffered (bytes ['t', '1', '2', '3', '0'])).buf.read i.val =
      (bytes ['t', '1', '2', '3', '0'])[i.val]?) ∧
    decodeLine (bytes ['t', '1', '2', '3', '0']) = .ok ⟨.standard 0x123, 0, zeros⟩ := by decide

theorem witness_CarriageReturnEndsTheLine_short_and_desynced :
    (buffered (bytes ['t', '1', '2', '3'])).filled ≤ 4 ∧ (buffered (bytes ['t', '1', '2', '3'])).desynced = false ∧
    ({ fullOfA with desynced := true } : State).desynced = true := by decide

theorem witness_BellAbortsTheLine : params.belPolicy = .abort ∧ (⟨28, 5, .asCr⟩ : Params).belPolicy = .asCr := by decide

theorem witness_OrdinaryByteIsAppended :
    (buffered (List.replicate 27 0x41)).desynced = false ∧ (buffered (List.replicate 27 0x41)).filled < params.capacity ∧
    (0x00 : Byte) ≠ 0x0D ∧ (0x00 : Byte) ≠ 0x07 := by decide

theorem witness_FullBufferOverflowsAndDiscardingDrops :
    fullOfA.desynced = false ∧ fullOfA.filled = params.capacity ∧ ({ fullOfA with desynced := true } : State).desynced = true := by
  decide

theorem witness_OnlyAnAppendWritesTheBuffer :
    exec (.rxOther 0x74) State.reset = .next ((State.reset.append 0x74).emitRx .none) := rfl

theorem witness_DesyncedChangesOnlyAtOverflowAndDelimiter :
    exec (.rxOther 0x41) fullOfA = .next (fullOfA.setDesynced.emitRx .none) ∧
    (fullOfA.setDesynced.emitRx .none).desynced = true ∧
    exec .rxBel (fullOfA.setDesynced) = .next (fullOfA.setDesynced.endLine (.discard .aborted)) := ⟨rfl, rfl, rfl⟩

theorem witness_EveryDelimiterResynchronises :
    fullOfA.Inv params ∧ rxBel params fullOfA = .next (fullOfA.endLine (.discard .aborted)) := ⟨fullOfA_inv, rfl⟩

theorem witness_EveryByteIsConsumedWithItsEvent : ({ fullOfA with desynced := true } : State).Inv params :=
  overflowed_inv

theorem witness_ReceiveStepsLeaveTheOtherPortsAlone :
    receives .rxBel = true ∧ exec .rxBel fullOfA = .next (fullOfA.endLine (.discard .aborted)) ∧
    receives (.rxOther 0x41) = true ∧ exec (.rxOther 0x41) fullOfA = .next (fullOfA.setDesynced.emitRx .none) ∧
    fullOfA.filled = params.capacity ∧
    exec (.rxOther 0x41) fullOfA.setDesynced = .next (fullOfA.setDesynced.emitRx .none) ∧
    fullOfA.setDesynced.desynced = true ∧
    exec (.rxOther 0x41) State.reset = .next ((State.reset.append 0x41).emitRx .none) ∧ 27 ≠ State.reset.filled :=
  ⟨rfl, rfl, rfl, rfl, rfl, rfl, rfl, rfl, by decide⟩

theorem witness_TransmitAndReceiveCommute : transmits .encClose = true ∧ receives (.rxOther 0x41) = true ∧
    exec .encClose fullOfA = .next (fullOfA.emitTx [encodeClose]) ∧
    exec (.rxOther 0x41) (fullOfA.emitTx [encodeClose]) =
      .next ((fullOfA.emitTx [encodeClose]).setDesynced.emitRx .none) := ⟨rfl, rfl, rfl, rfl⟩

/-- The same five bytes buffered over different stale cells. -/
theorem witness_LineResultDependsOnTheLineAlone :
    (buffered (bytes ['t', '1', '2', '3', '0'])).filled =
      ({ buffered (bytes ['t', '1', '2', '3', '0', 'Z']) with filled := 5 } : State).filled ∧
    (∀ a : Fin 5, (buffered (bytes ['t', '1', '2', '3', '0'])).buf.read a.val =
      (buffered (bytes ['t', '1', '2', '3', '0', 'Z'])).buf.read a.val) ∧
    (nextOf (exec .rxCr (buffered (bytes ['t', '1', '2', '3', '0'])))).isSome = true := by decide

theorem witness_StreamAfterADelimiterIsFresh :
    BetweenLines State.reset ∧ BetweenLines { fullOfA with filled := 0 } ∧
    rxFeed [0x0D] State.reset = .next (State.reset.endLine (.discard .tooShort), [.discard .tooShort]) :=
  ⟨⟨rfl, rfl⟩, ⟨rfl, rfl⟩, rfl⟩

/-- A line split by an answer without data and by a transport error, and as many read calls as it takes. -/
theorem witness_FeedingIsResumableAtAnyByte :
    (channel [] []).block.Inv params ∧
    ([.byte 0x74, .noData, .byte 0x31, .ioError 1, .byte 0x0D] : List TransportRead).length ≤ 5 ∧
    (streamBytes [.byte 0x74, .noData, .byte 0x31, .ioError 1, .byte 0x0D]).length ≤ 3 :=
  ⟨⟨rfl, rfl, by decide, by decide, fun i h => absurd h (Nat.not_lt_zero i)⟩, by decide, by decide⟩

theorem witness_OverflowHealsAtTheDelimiter :
    BetweenLines State.reset ∧ LineBytes (List.replicate 29 0x41) ∧
    params.capacity < (List.replicate 29 (0x41 : Byte)).length :=
  ⟨⟨rfl, rfl⟩, by unfold LineBytes; decide, by decide⟩

/-- The lengths on each side of the boundary of R274, and the longest line that fits. -/
theorem witness_LineFeedSpoilsTheNextLine :
    BetweenLines State.reset ∧
    (LineBytes (bytes ['t', '0', '0']) ∧ (bytes ['t', '0', '0']).length < 4) ∧
    (LineBytes (bytes ['t', '0', '0', '2']) ∧ (bytes ['t', '0', '0', '2']).length = 4) ∧
    LineBytes (List.replicate 27 0x41) ∧ (List.replicate 27 (0x41 : Byte)).length < params.capacity :=
  ⟨⟨rfl, rfl⟩, by unfold LineBytes; decide, by unfold LineBytes; decide, by unfold LineBytes; decide, by decide⟩

/-- Each check of a `t` line, with the line at which it first fails (95_test_vectors.md 2.4). -/
theorem witness_DecStdFollowsTheLineRules :
    ¬ IdDigits .std (bytes ['t', '1', '2', 'G', '9']) ∧
    (IdDigits .std (bytes ['t', '8', '0', '0', '9']) ∧ idValue .std (bytes ['t', '8', '0', '0', '9']) = 0x800) ∧
    (IdDigits .std (bytes ['t', '7', 'F', 'F', 'G']) ∧ idValue .std (bytes ['t', '7', 'F', 'F', 'G']) = 0x7FF ∧
      digitAt (bytes ['t', '7', 'F', 'F', 'G']) 4 = none) ∧
    (IdDigits .std (bytes ['t', '1', '2', '3', '9']) ∧ digitAt (bytes ['t', '1', '2', '3', '9']) 4 = some 9) ∧
    (digitAt (bytes ['t', '1', '2', '3', '1', '0']) 4 = some 1 ∧
      ¬ PayloadDigits .std 1 (bytes ['t', '1', '2', '3', '1', '0'])) ∧
    (digitAt (bytes ['t', '1', '2', '3', '1', 'A', 'b']) 4 = some 1 ∧
      PayloadDigits .std 1 (bytes ['t', '1', '2', '3', '1', 'A', 'b'])) := by
  unfold IdDigits PayloadDigits; decide

/-- Each check of a `T` line, likewise. -/
theorem witness_DecExtFollowsTheLineRules :
    ¬ IdDigits .ext (bytes ['T', '1', '2', '3', '4']) ∧
    (IdDigits .ext (bytes ['T', '2', '0', '0', '0', '0', '0', '0', '0', '0']) ∧
      idValue .ext (bytes ['T', '2', '0', '0', '0', '0', '0', '0', '0', '0']) = 0x20000000) ∧
    (IdDigits .ext (bytes ['T', '1', '2', '3', '4', '5', '6', '7', '8']) ∧
      idValue .ext (bytes ['T', '1', '2', '3', '4', '5', '6', '7', '8']) = 0x12345678 ∧
      digitAt (bytes ['T', '1', '2', '3', '4', '5', '6', '7', '8']) 9 = none) ∧
    (IdDigits .ext (bytes ['T', '1', 'F', 'F', 'F', 'F', 'F', 'F', 'F', '9']) ∧
      idValue .ext (bytes ['T', '1', 'F', 'F', 'F', 'F', 'F', 'F', 'F', '9']) = 0x1FFFFFFF ∧
      digitAt (bytes ['T', '1', 'F', 'F', 'F', 'F', 'F', 'F', 'F', '9']) 9 = some 9) ∧
    ¬ PayloadDigits .ext 1 (bytes ['T', '1', 'F', 'F', 'F', 'F', 'F', 'F', 'F', '1', '0']) ∧
    PayloadDigits .ext 8 (bytes ['T', '0', '0', '0', '0', '0', '0', '0', '1', '8', '0', '1', '2', '3', '4', '5', '6', '7',
      '8', '9', 'A', 'B', 'C', 'D', 'E', 'F']) := by
  unfold IdDigits PayloadDigits; decide

theorem witness_UnrecognisedLinesAreNotDataFrames :
    (∀ b, (bytes ['r', '1', '2', '3', '0']).head? = some b → commandOf b = none) ∧
    (∀ b, ([] : List Byte).head? = some b → commandOf b = none) :=
  ⟨fun b h => by obtain rfl : (0x72 : Byte) = b := by simpa [bytes] using h
                 decide, fun b h => by simp at h⟩

/-- The shortest line that is decoded and the longest. -/
theorem witness_DecodeLineDispatchesOnTheCommandByte :
    (buffered (bytes ['t', '1', '2', '3', '0'])).desynced = false ∧
    params.minValid ≤ (buffered (bytes ['t', '1', '2', '3', '0'])).filled ∧
    Buffered (buffered (bytes ['t', '1', '2', '3', '0'])) (bytes ['t', '1', '2', '3', '0']) ∧
    fullOfA.desynced = false ∧ fullOfA.filled ≤ params.capacity ∧ Buffered fullOfA (List.replicate 28 0x41) := by
  unfold Buffered; decide

theorem witness_DecodingWritesNoState : decodesLine (.decStd []) = true := by decide

theorem witness_TrailingCharactersAreIgnored :
    exec (decode (.line (bytes ['t', '1', '2', '3', '0']))) State.reset =
      .next { State.reset with decOut := some (.ok ⟨.standard 0x123, 0, zeros⟩) } := rfl

theorem witness_TruncatedFrameLineIsMalformed :
    exec (encodeInstr .std 0xBC 0 zeros) State.reset =
      .next { State.reset with txOut := [.ok (bytes ['t', '0', 'B', 'C', '0', '\r'])] } ∧ 1 ≤ 4 ∧
    4 < (bytes ['t', '0', 'B', 'C', '0', '\r']).length - 1 := ⟨rfl, by decide, by decide⟩

theorem witness_DecodedLineIsTheEncodedFrame :
    exec (encodeInstr .ext 0x1ABCDEF1 0 zeros) State.reset =
      .next { State.reset with txOut :=
        [.ok (bytes ['T', '1', 'A', 'B', 'C', 'D', 'E', 'F', '1', '0', '\r'])] } := rfl

theorem witness_EncodedFrameComesBackOnTheWire :
    exec (encodeInstr .std 0xBC 0 zeros) { fullOfA with filled := 0 } =
      .next { fullOfA with filled := 0, txOut := [.ok (bytes ['t', '0', 'B', 'C', '0', '\r'])] } ∧
    BetweenLines { fullOfA with filled := 0 } := ⟨rfl, rfl, rfl⟩

theorem witness_IdentifierOutOfRangeCannotBeMade :
    0x7FF ≤ maxId .std ∧ maxId .std < 0x800 ∧ 0x1FFFFFFF ≤ maxId .ext ∧ maxId .ext < 0x20000000 := by decide

theorem witness_EveryStepKeepsTheInvariant :
    ({ fullOfA with pending := [.reset] } : State).Inv params ∧
    step { fullOfA with pending := [.reset] } = .next (fullOfA.resetBlock) :=
  ⟨⟨fullOfA_inv.canonical, fullOfA_inv.within, fullOfA_inv.bounded, fullOfA_inv.full, fullOfA_inv.written⟩, rfl⟩

theorem witness_InvariantStatesNeverFault :
    ({ fullOfA with pending := [.port 0 (.tx (bareRequest 7))] } : State).Inv params ∧
    step { fullOfA with pending := [.port 0 (.tx (bareRequest 7))] } = .refused (.reservedTransmitOp 7) :=
  ⟨⟨fullOfA_inv.canonical, fullOfA_inv.within, fullOfA_inv.bounded, fullOfA_inv.full, fullOfA_inv.written⟩, rfl⟩

theorem witness_ReceiveRulesKeepTheInvariantForAnyParameters :
    fullOfA.Inv params ∧ LineByte 0x41 ∧ rxOther params 0x41 fullOfA = .next (fullOfA.setDesynced.emitRx .none) :=
  ⟨fullOfA_inv, by decide, rfl⟩

theorem witness_BufferReadsWhatWasWritten : (1 : Nat) ≠ 0 ∧ Memory.wf [(0, 0x74), (27, 0x31)] = true := by decide

theorem witness_OpenAndCloseWriteTheirLines : NoWriteError (channel [] [.accept 0, .accept 1]).transport := by
  intro w hw
  simp only [channel, List.mem_cons, List.not_mem_nil, or_false] at hw
  rcases hw with rfl | rfl <;> exact ⟨_, rfl⟩

theorem witness_WriteSendsTheWholeLine :
    (List.replicate 8 (0xFF : Byte)).length ≤ 8 ∧ 8 < (List.replicate 9 (0xFF : Byte)).length ∧
    NoWriteError (channel [] []).transport := ⟨by decide, by decide, fun _ h => by simp [channel] at h⟩

theorem witness_FailedWriteLeavesAPrefix : ([] : List Byte).length ≤ 8 := by decide

theorem witness_ReadReturnsAtTheEndOfALine :
    rxFeed [0x74] State.reset = .next ((State.reset.append 0x74).emitRx .none, [.none]) ∧
    (∀ e, e ∈ [Event.none] → e = .none) ∧
    rxStep 0x07 ((State.reset.append 0x74).emitRx .none) =
      .next (((State.reset.append 0x74).emitRx .none).endLine (.discard .aborted), .discard .aborted) ∧
    (channel [.byte 0x74, .byte 0x07, .noData] []).transport.reads =
      [0x74].map .byte ++ .byte 0x07 :: [.noData] := ⟨rfl, by decide, rfl, rfl⟩

end Sys2Proof.Tests
end

/-! PROOFS. The state: what an instruction outside the receive path leaves alone, and what each update of the receive
path keeps of the invariant. -/

namespace Sys2Proof.Machine

/-- A transmit request decodes to no receive instruction. -/
theorem receives_decodeTx (r : TxRequest) : receives (decodeTx r) = false := by
  unfold decodeTx
  split_ifs <;> rfl

/-- A line on the Line Decoder's input decodes to no receive instruction. -/
theorem receives_decodeLineWord (L : List Byte) : receives (decodeLineWord L) = false := by
  cases L with
  | nil => rfl
  | cons b rest =>
    rcases decodeLineWord_cons b rest with ⟨c, rfl⟩ | ⟨_, e⟩
    · cases c <;> rfl
    · rw [e]; rfl

/-- The decoder gives RX.other no delimiter (R161). -/
theorem lineByte_of_decode_eq_rxOther {w : PortWord} {b : Byte} (h : decode w = .rxOther b) : LineByte b := by
  have hr : receives (decode w) = true := by rw [h]; rfl
  cases w with
  | tx r => exact absurd hr (by simp [decode, receives_decodeTx])
  | line L => exact absurd hr (by simp [decode, receives_decodeLineWord])
  | openChannel r => exact absurd hr (by simp [decode, receives])
  | rx d =>
    rcases decodeRx_cases d with ⟨_, e⟩ | ⟨_, e⟩ | ⟨h1, h2, e⟩
    · exact absurd (e.symm.trans h) (by simp)
    · exact absurd (e.symm.trans h) (by simp)
    · obtain rfl : d = b := Instr.rxOther.inj (e.symm.trans h)
      exact ⟨h1, h2⟩

/-- A reserved op code is refused in every state (R150). -/
@[simp] theorem exec_encReserved (op : BitVec 3) (s : State) :
    exec (.encReserved op) s = .refused (.reservedTransmitOp op) := rfl

/-- Only the receive path writes the Reassembly State (R41, R193). -/
theorem exec_reassembly_of_not_receives {i : Instr} {s t : State} (hi : receives i = false)
    (h : exec i s = .next t) : t.reassembly = s.reassembly := by
  rcases instr_path i with ht | hr | hl | ⟨op, rfl⟩
  · obtain ⟨rs, e⟩ := exec_transmits ht
    obtain rfl := Host.Outcome.next.inj ((e s).symm.trans h)
    rfl
  · exact absurd (hr.symm.trans hi) (by simp)
  · obtain ⟨r, e⟩ := exec_decodesLine hl
    obtain rfl := Host.Outcome.next.inj ((e s).symm.trans h)
    rfl
  · simp at h

namespace State

theorem reassembly_eq_iff {s t : State} :
    t.reassembly = s.reassembly ↔ t.buf = s.buf ∧ t.filled = s.filled ∧ t.desynced = s.desynced := by
  simp [reassembly]

namespace Inv

variable {P : Params} {s t : State}

/-- The invariant speaks of the Reassembly State alone. -/
theorem of_reassembly_eq (h : s.Inv P) (e : t.reassembly = s.reassembly) : t.Inv P := by
  obtain ⟨hbuf, hfilled, hdes⟩ := reassembly_eq_iff.mp e
  constructor
  · rw [hbuf]; exact h.canonical
  · rw [hbuf]; exact h.within
  · rw [hfilled]; exact h.bounded
  · rw [hdes, hfilled]; exact h.full
  · rw [hbuf, hfilled]; exact h.written

/-- Between lines nothing is asked of the cells but their form. -/
theorem of_betweenLines (hwf : t.buf.wf = true) (hin : t.buf.within P.capacity = true) (hf : t.filled = 0)
    (hd : t.desynced = false) : t.Inv P where
  canonical := hwf
  within := hin
  bounded := by omega
  full h := by simp [hd] at h
  written i h := by omega

/-- A delimiter keeps the invariant (R162, R163). -/
theorem endLine (h : s.Inv P) (ev : Event) : (s.endLine ev).Inv P :=
  of_betweenLines h.canonical h.within rfl rfl

/-- An append below the capacity keeps the invariant (R164): the new cell holds the byte, the earlier ones are as they
were, and the buffer was not full, so that the line has not overflowed. -/
theorem append {b : Byte} (h : s.Inv P) (hd : s.desynced = false) (hlt : s.filled < P.capacity) (hb : LineByte b) :
    (s.append b).Inv P where
  canonical := Memory.wf_write _ _ h.canonical
  within := Memory.within_write hlt h.within
  bounded := hlt
  full hd' := by simp [hd] at hd'
  written i hi := by
    rcases Nat.lt_succ_iff_lt_or_eq.mp hi with hlt' | rfl
    · obtain ⟨c, hc, hline⟩ := h.written i hlt'
      exact ⟨c, (Memory.read_write_other (Nat.ne_of_lt hlt')).trans hc, hline⟩
    · exact ⟨b, Memory.read_write_same .., hb⟩

/-- An overflow keeps the invariant (R165). -/
theorem setDesynced (h : s.Inv P) (hfull : s.filled = P.capacity) : s.setDesynced.Inv P where
  canonical := h.canonical
  within := h.within
  bounded := h.bounded
  full _ := hfull
  written := h.written

/-- The buffered line of a state of the invariant can be read (R60, R43). -/
theorem exists_line (h : s.Inv P) : ∃ L, s.line P = .ok L := by
  rcases Memory.readCells_cases P s.buf 0 s.filled with ⟨L, e, _⟩ | ⟨_, hlt⟩ | ⟨_, j, hj, hnone⟩
  · exact ⟨L, e⟩
  · have := h.bounded
    omega
  · obtain ⟨b, hb, _⟩ := h.written j hj
    exact absurd ((Nat.zero_add j ▸ hnone).symm.trans hb) (by simp)

/-- RX.CR completes in a state of the invariant. -/
theorem exists_rxCr_next (h : s.Inv P) : ∃ t, rxCr P s = .next t := by
  rcases rxCr_cases P s with ⟨_, e⟩ | ⟨_, _, e⟩ | ⟨_, _, L, _, e⟩ | ⟨_, _, f, hf, _⟩
  · exact ⟨_, e⟩
  · exact ⟨_, e⟩
  · exact ⟨_, e⟩
  · obtain ⟨L, hL⟩ := h.exists_line
    exact absurd (hf.symm.trans hL) (by simp)

/-- RX.BEL completes in a state of the invariant, under either policy. -/
theorem exists_rxBel_next (h : s.Inv P) : ∃ t, rxBel P s = .next t := by
  cases hp : P.belPolicy with
  | abort => exact ⟨s.endLine (.discard .aborted), by simp only [rxBel, hp]⟩
  | asCr => simpa only [rxBel, hp] using h.exists_rxCr_next

/-- An instruction keeps the invariant, unless it is RX.other with a delimiter, which the decoder never gives. -/
theorem exec {i : Instr} (h : s.Inv params) (hi : ∀ b, i = .rxOther b → LineByte b)
    (he : Machine.exec i s = .next t) : t.Inv params := by
  cases hr : receives i with
  | false => exact h.of_reassembly_eq (exec_reassembly_of_not_receives hr he)
  | true =>
    rcases exec_receives hr he with ⟨ev, _, rfl, _⟩ | ⟨b, hib, ⟨_, rfl⟩ | ⟨hd, hlt, rfl⟩ | ⟨_, hfull, rfl⟩⟩
    · exact h.endLine ev
    · exact h.of_reassembly_eq rfl
    · exact (h.append hd hlt (hi b hib)).of_reassembly_eq rfl
    · exact (h.setDesynced hfull).of_reassembly_eq rfl

end Inv
end State

/-- Settles O52: a step does nothing, resets the block, or runs a decoded instruction, and each keeps the invariant. -/
theorem everyStepKeepsTheInvariant : Obligations.EveryStepKeepsTheInvariant := by
  intro s t hinv hstep
  rcases step_cases s with ⟨_, e⟩ | ⟨rest, _, e⟩ | ⟨a, w, rest, _, _, e⟩ | ⟨a, w, rest, u, _, hclaim, e⟩ <;>
    rw [e] at hstep
  · obtain rfl := Host.Outcome.next.inj hstep
    exact hinv
  · obtain rfl := Host.Outcome.next.inj hstep
    exact .of_betweenLines rfl rfl rfl rfl
  · exact absurd hstep (by simp)
  · obtain ⟨_, rfl⟩ := State.claim_eq_some.mp hclaim
    have hu : ({ s.withPending rest with owner := some a } : State).Inv params := hinv.of_reassembly_eq rfl
    exact hu.exec (fun _ => lineByte_of_decode_eq_rxOther) hstep

/-- Settles O31: outside the receive path `desynced` is kept, and each rule of the receive path says what becomes of
it. -/
theorem desyncedChangesOnlyAtOverflowAndDelimiter : Obligations.DesyncedChangesOnlyAtOverflowAndDelimiter := by
  intro i s t h
  cases hr : receives i with
  | false =>
    obtain ⟨_, _, hd⟩ := State.reassembly_eq_iff.mp (exec_reassembly_of_not_receives hr h)
    have hcr : i ≠ .rxCr := by rintro rfl; simp [receives] at hr
    have hbel : i ≠ .rxBel := by rintro rfl; simp [receives] at hr
    simp +contextual [hd, hcr, hbel]
  | true =>
    rcases exec_receives hr h with ⟨ev, _, rfl, hi⟩ | ⟨b, rfl, ⟨hd, rfl⟩ | ⟨hd, _, rfl⟩ | ⟨hd, hfull, rfl⟩⟩
    · simp [hi]
    · simp [hd]
    · simp [hd]
    · simp [hd, hfull]

/-- Settles O32: whatever a delimiter completes with has ended the line, and only an unreadable line stops it. -/
theorem everyDelimiterResynchronises : Obligations.EveryDelimiterResynchronises := by
  refine fun P s => ⟨fun t h => ?_, fun hinv => ⟨hinv.exists_rxCr_next, hinv.exists_rxBel_next⟩⟩
  obtain ⟨ev, _, rfl⟩ := h.elim rxCr_next rxBel_next
  exact ⟨rfl, rfl⟩

/-- Settles O34: a delimiter writes no cell, and of the rules of RX.other only the append does, the cell at `filled`. -/
theorem receiveStepsLeaveTheOtherPortsAlone : Obligations.ReceiveStepsLeaveTheOtherPortsAlone := by
  intro i s t hr h
  rcases exec_receives hr h with ⟨ev, _, rfl, rfl | rfl⟩ | ⟨b, rfl, ⟨_, rfl⟩ | ⟨hd, hlt, rfl⟩ | ⟨_, _, rfl⟩⟩
  · simp
  · simp
  · simp
  · refine ⟨rfl, rfl, rfl, rfl, by simp, fun c _ => ⟨fun a ha => Memory.read_write_other ha, ?_⟩⟩
    rintro (hd' | hfull)
    · exact absurd (hd.symm.trans hd') (by simp)
    · omega
  · simp

/-- Settles O6: the presentation's agent is taken as the host. -/
theorem stepRunsTheDecodedInstruction : Obligations.StepRunsTheDecodedInstruction := by
  intro s a w rest hp howner
  have hclaim : (s.withPending rest).claim a = some { s with pending := rest, owner := some a } :=
    State.claim_eq_some.mpr ⟨howner, rfl⟩
  simp [step, hp, hclaim]

/-- Settles O8: the reset state's own values, and the mode that its flag names. -/
theorem resetIsAccumulatingAndEmpty : Obligations.ResetIsAccumulatingAndEmpty :=
  ⟨rfl, rfl, State.rxMode_of_not_desynced _ rfl⟩

/-- Settles O23: the responses are those of the instruction, and putting them on the port changes nothing else. -/
theorem transmitReadsRequestWritesResponse : Obligations.TransmitReadsRequestWritesResponse := by
  intro i s s' hi
  obtain ⟨rs, e⟩ := exec_transmits hi
  exact ⟨s.emitTx rs, s'.emitTx rs, e s, e s', rfl, rfl, fun _ => rfl, rfl, rfl⟩

/-- Settles O51: each class checks its own range. -/
theorem identifierOutOfRangeCannotBeMade : Obligations.IdentifierOutOfRangeCannotBeMade := by
  intro k v
  cases k with
  | std =>
    refine ⟨fun h => ⟨.standard ⟨v, Nat.lt_succ_of_le h⟩, dif_pos _, rfl, rfl⟩, fun h => dif_neg ?_⟩
    exact Nat.not_lt_of_ge h
  | ext =>
    refine ⟨fun h => ⟨.extended ⟨v, Nat.lt_succ_of_le h⟩, dif_pos _, rfl, rfl⟩, fun h => dif_neg ?_⟩
    exact Nat.not_lt_of_ge h

/-- Settles O53: the state after reset is between lines, with no cell written. -/
theorem resetMeetsTheInvariant : Obligations.ResetMeetsTheInvariant :=
  .of_betweenLines rfl rfl rfl rfl

end Sys2Proof.Machine

/-! PROOFS. The buffer and the fields of a line: a cell after a write, the instructions that write one, the interleaving
of the two paths, and the value of a field of hex digits. -/

namespace Sys2Proof.Machine

open Sys2Proof.Spec

/-- Settles O56: the three laws of a write. -/
theorem bufferReadsWhatWasWritten : Obligations.BufferReadsWhatWasWritten := fun m a b =>
  ⟨Memory.read_write_same m a b, fun _ => Memory.read_write_other, Memory.wf_write a b⟩

/-- Settles O30: outside the receive path the buffer is kept, and of the rules of the path only the append writes it. -/
theorem onlyAnAppendWritesTheBuffer : Obligations.OnlyAnAppendWritesTheBuffer := by
  intro i s t h
  cases hr : receives i with
  | false =>
    obtain ⟨hbuf, _, _⟩ := State.reassembly_eq_iff.mp (exec_reassembly_of_not_receives hr h)
    exact .inl fun a => by rw [hbuf]
  | true =>
    rcases exec_receives hr h with ⟨ev, _, rfl, _⟩ | ⟨b, rfl, ⟨_, rfl⟩ | ⟨hd, hlt, rfl⟩ | ⟨_, _, rfl⟩⟩
    · exact .inl fun _ => rfl
    · exact .inl fun _ => rfl
    · exact .inr ⟨b, rfl, hd, hlt, rfl, fun _ => Memory.read_write_other⟩
    · exact .inl fun _ => rfl

/-! ### The receive path and the transmit port -/

namespace State

variable (s : State) (rs : List Response)

/-- The transmit port shows the latest responses only. -/
@[simp] theorem emitTx_emitTx (rs' : List Response) : (s.emitTx rs).emitTx rs' = s.emitTx rs' := rfl

/-- Showing what already stands on the port changes nothing. -/
@[simp] theorem emitTx_self : s.emitTx s.txOut = s := rfl

@[simp] theorem emitTx_line (P : Params) : (s.emitTx rs).line P = s.line P := rfl
@[simp] theorem emitTx_endLine (ev : Event) : (s.emitTx rs).endLine ev = (s.endLine ev).emitTx rs := rfl
@[simp] theorem emitTx_emitRx (ev : Event) : (s.emitTx rs).emitRx ev = (s.emitRx ev).emitTx rs := rfl
@[simp] theorem emitTx_append (b : Byte) : (s.emitTx rs).append b = (s.append b).emitTx rs := rfl
@[simp] theorem emitTx_setDesynced : (s.emitTx rs).setDesynced = s.setDesynced.emitTx rs := rfl

end State

/-- RX.CR neither reads nor writes the transmit port. -/
theorem rxCr_emitTx {P : Params} {s t : State} (rs : List Response) (h : rxCr P s = .next t) :
    rxCr P (s.emitTx rs) = .next (t.emitTx rs) := by
  rcases rxCr_cases P s with ⟨hd, e⟩ | ⟨hd, hf, e⟩ | ⟨hd, hf, L, hL, e⟩ | ⟨_, _, f, _, e⟩ <;>
    cases e.symm.trans h
  · simp [rxCr, hd]
  · simp [rxCr, hd, hf]
  · simp [rxCr, hd, Nat.not_lt.mpr hf, hL]

/-- RX.BEL neither reads nor writes the transmit port, under either policy. -/
theorem rxBel_emitTx {P : Params} {s t : State} (rs : List Response) (h : rxBel P s = .next t) :
    rxBel P (s.emitTx rs) = .next (t.emitTx rs) := by
  cases hp : P.belPolicy with
  | abort =>
    simp only [rxBel, hp] at h ⊢
    cases h; rfl
  | asCr =>
    simp only [rxBel, hp] at h ⊢
    exact rxCr_emitTx rs h

/-- RX.other neither reads nor writes the transmit port. -/
theorem rxOther_emitTx {P : Params} {b : Byte} {s t : State} (rs : List Response) (h : rxOther P b s = .next t) :
    rxOther P b (s.emitTx rs) = .next (t.emitTx rs) := by
  rcases rxOther_cases P b s with ⟨hd, e⟩ | ⟨hd, hf, e⟩ | ⟨hd, hf, e⟩ | ⟨_, _, e⟩ <;> cases e.symm.trans h
  · simp [rxOther, hd]
  · simp [rxOther, hd, hf]
  · simp [rxOther, hd, hf]

/-- Whatever stands on the transmit port, a receive instruction does the same and leaves it there. -/
theorem exec_receives_emitTx {j : Instr} {s t : State} (rs : List Response) (hj : receives j = true)
    (h : exec j s = .next t) : exec j (s.emitTx rs) = .next (t.emitTx rs) := by
  rcases exec_receives hj h with ⟨_, _, _, rfl | rfl⟩ | ⟨b, rfl, _⟩
  · exact rxCr_emitTx (P := params) rs h
  · exact rxBel_emitTx (P := params) rs h
  · exact rxOther_emitTx (P := params) rs h

/-- Settles O35: the transmit instruction only puts its responses on the transmit port, which the receive instruction
carries along. For the order with the transmit instruction first, the port's old responses are put back. -/
theorem transmitAndReceiveCommute : Obligations.TransmitAndReceiveCommute := by
  intro i j s hi hj
  obtain ⟨rs, hexec⟩ := exec_transmits hi
  refine ⟨fun t u ht hu => ?_, fun t u ht hu => ?_⟩
  · obtain rfl := Host.Outcome.next.inj ((hexec s).symm.trans ht)
    have hback : exec j s = .next (u.emitTx s.txOut) := by simpa using exec_receives_emitTx s.txOut hj hu
    have hagain : exec j (s.emitTx rs) = .next (u.emitTx rs) := by simpa using exec_receives_emitTx rs hj hback
    exact ⟨_, hback, (hexec _).trans (hagain.symm.trans hu)⟩
  · obtain rfl := Host.Outcome.next.inj ((hexec t).symm.trans hu)
    exact ⟨_, hexec s, exec_receives_emitTx rs hj ht⟩

/-! ### The value of a field of hex digits -/

/-- The digit decoder is the table of R83. -/
theorem digitToValue_eq_hexValue (b : Byte) :
    digitToValue b = (hexValue b).elim (.err .malformedHex) fun v => .ok (BitVec.ofNat 4 v) := by
  revert b; decide

/-- A digit's value is below 16. -/
theorem hexValue_lt {b : Byte} {v : Nat} (h : hexValue b = some v) : v < 16 := by
  have htable : ∀ b : Byte, ∀ v ∈ hexValue b, v < 16 := by decide
  exact htable b v h

/-- With digits only, an accumulation that has room for them shifts the field's value in (R64). -/
theorem accumulateHex_of_digits {w : Nat} (hw : 4 ≤ w) {cs : List Byte} (hcs : ∀ c ∈ cs, (hexValue c).isSome = true)
    {acc : BitVec w} (hroom : (acc.toNat + 1) * 16 ^ cs.length ≤ 2 ^ w) :
    ∃ v, accumulateHex w acc cs = .ok v ∧
      v.toNat = acc.toNat * 16 ^ cs.length + fieldValue (cs.map fun c => (hexValue c).getD 0) := by
  induction cs generalizing acc with
  | nil => exact ⟨acc, rfl, by simp [fieldValue]⟩
  | cons c cs ih =>
    obtain ⟨d, hd⟩ := Option.isSome_iff_exists.mp (hcs c List.mem_cons_self)
    have hlt : d < 16 := hexValue_lt hd
    have hpos : 0 < 16 ^ cs.length := by positivity
    rw [List.length_cons, pow_succ] at hroom
    have hacc : ((acc <<< 4) ||| (BitVec.ofNat 4 d).setWidth w).toNat = acc.toNat * 16 + d := by
      rw [toNat_shiftIn acc _ hw (by nlinarith), BitVec.toNat_ofNat, Nat.mod_eq_of_lt hlt]
    obtain ⟨v, hv, hval⟩ := ih (fun x hx => hcs x (List.mem_cons_of_mem c hx)) (by rw [hacc]; nlinarith)
    refine ⟨v, by simpa [accumulateHex, digitToValue_eq_hexValue, hd] using hv, ?_⟩
    simp only [hval, hacc, hd, fieldValue, List.map_cons, List.length_map, List.length_cons, Option.getD_some]
    ring

/-- A byte that is no digit leaves an accumulation without a value, wherever it stands (R128). -/
theorem accumulateHex_of_mem_not_digit {w : Nat} {cs : List Byte} (hcs : ∃ c ∈ cs, hexValue c = none)
    (acc : BitVec w) : accumulateHex w acc cs = .err .malformedHex := by
  induction cs generalizing acc with
  | nil => simp at hcs
  | cons c cs ih =>
    cases hc : hexValue c with
    | none => simp [accumulateHex, digitToValue_eq_hexValue, hc]
    | some d =>
      have htail : ∃ x ∈ cs, hexValue x = none := by simpa [hc] using hcs
      simp [accumulateHex, digitToValue_eq_hexValue, hc, ih htail]

/-- Settles O13: three digits fit 16 bits and eight digits 32. -/
theorem identifierDigitsAreMostSignificantFirst : Obligations.IdentifierDigitsAreMostSignificantFirst := by
  refine ⟨fun s hs h => ?_, fun s _ h => ?_, fun s hs h => ?_, fun s _ h => ?_⟩
  · simpa [u16From3Hex] using accumulateHex_of_digits (w := 16) (acc := 0) (by decide) h (by simp [hs])
  · exact accumulateHex_of_mem_not_digit h 0
  · simpa [u32From8Hex] using accumulateHex_of_digits (w := 32) (acc := 0) (by decide) h (by simp [hs])
  · exact accumulateHex_of_mem_not_digit h 0

end Sys2Proof.Machine

/-! PROOFS. The encoding: what a port value decodes to, the byte at every position of the line that the encoder gives,
and the alphabet of those lines (30_encoding.md, 41_frame_encoder.md). -/

namespace Sys2Proof.Machine

open Sys2Proof.Spec

/-! ### The port values -/

/-- Settles O1: each word is a literal, which the decoder runs on. -/
theorem specWordsDecodeAsTheTablesSay : Obligations.SpecWordsDecodeAsTheTablesSay := by
  unfold Obligations.SpecWordsDecodeAsTheTablesSay
  decide

/-- Settles O3: the classes of R161 for a byte that is neither delimiter. -/
theorem eachReceiveByteSelectsOneOperation : Obligations.EachReceiveByteSelectsOneOperation := by
  refine ⟨rfl, rfl, fun b hcr hbel => ?_⟩
  rcases decodeRx_cases b with ⟨h, _⟩ | ⟨h, _⟩ | ⟨_, _, e⟩
  · exact absurd h hcr
  · exact absurd h hbel
  · exact e

/-- An op code above 4 names no operation (R99). -/
theorem decodeTx_reserved {r : TxRequest} (h : 4 < r.op) : decodeTx r = .encReserved r.op := by
  have hne : ∀ op : BitVec 3, 4 < op → op ≠ 0 ∧ op ≠ 1 ∧ op ≠ 2 ∧ op ≠ 3 ∧ op ≠ 4 := by decide
  obtain ⟨hne0, hne1, hne2, hne3, hne4⟩ := hne r.op h
  rw [decodeTx, if_neg hne0, if_neg hne1, if_neg hne2, if_neg hne3, if_neg hne4]

/-- Settles O4: one code after the other. -/
theorem eachTransmitCodeSelectsItsOperation : Obligations.EachTransmitCodeSelectsItsOperation := by
  refine fun r => ⟨fun h => ?_, fun h => ?_, fun h => ?_, fun h => ?_, fun h => ?_, decodeTx_reserved⟩ <;>
    simp [decode, decodeTx, h]

/-! ### What each encode instruction puts on the transmit port -/

section Exec

variable (s : State)

@[simp] theorem exec_encStd (id : BitVec 32) (len : Nat) (data : Payload) :
    exec (.encStd id len data) s = .next (s.emitTx [encodeStd id len data]) := rfl

@[simp] theorem exec_encExt (id : BitVec 32) (len : Nat) (data : Payload) :
    exec (.encExt id len data) s = .next (s.emitTx [encodeExt id len data]) := rfl

@[simp] theorem exec_encSetup (rate : Nibble) :
    exec (.encSetup rate) s = .next (s.emitTx [encodeSetup rate]) := rfl

@[simp] theorem exec_encOpen : exec .encOpen s = .next (s.emitTx [encodeOpen]) := rfl

@[simp] theorem exec_encClose : exec .encClose s = .next (s.emitTx [encodeClose]) := rfl

@[simp] theorem exec_openChannel (r : BitRate) :
    exec (.openChannel r) s = .next (s.emitTx [encodeSetup (bitRateCode r), encodeOpen]) := rfl

end Exec

/-! ### The command lines -/

/-- EncSetup gives a line exactly for a rate up to 8, and then the Setup line of the rate's digit (R84, R145). -/
theorem encodeSetup_eq_ok {rate : Nibble} {l : List Byte} :
    encodeSetup rate = .ok l ↔ rate.toNat ≤ 8 ∧ l = [0x53, BitVec.ofNat 8 (0x30 + rate.toNat), 0x0D] := by
  have hline : [commandByte .setup, 0x30 + rate.setWidth 8, Config.cr] =
      [0x53, BitVec.ofNat 8 (0x30 + rate.toNat), 0x0D] := by
    rw [BitVec.ofNat_add, BitVec.ofNat_toNat]
    rfl
  by_cases h : 8 < rate
  · have hrange : ¬ rate.toNat ≤ 8 := Nat.not_le.mpr (BitVec.lt_def.mp h)
    rw [encodeSetup, if_pos h]
    simp [hrange]
  · have hrange : rate.toNat ≤ 8 := Nat.not_lt.mp fun hlt => h (BitVec.lt_def.mpr hlt)
    rw [encodeSetup, if_neg h, hline]
    simp [hrange, eq_comm]

/-- Settles O19: the Open and Close lines are constants, and a rate up to 8 passes the check of EncSetup. -/
theorem commandLinesAreAsFormatted : Obligations.CommandLinesAreAsFormatted := by
  refine ⟨fun rate s h => ?_, fun _ => rfl, fun _ => rfl⟩
  rw [exec_encSetup, encodeSetup_eq_ok.mpr ⟨h, rfl⟩]
  rfl

/-- The code of a bit rate is its digit (R49). -/
theorem bitRateCode_eq_rateDigit (r : BitRate) : bitRateCode r = BitVec.ofNat 4 (rateDigit r) := by
  cases r <;> rfl

/-- EncSetup of a bit rate gives its Setup line (R84, R103). -/
theorem encodeSetup_bitRateCode (r : BitRate) : encodeSetup (bitRateCode r) = .ok (setupLine r) := by
  cases r <;> rfl

/-- Settles O21: OPEN_CHANNEL puts out what ENC.S gives for the rate's code, and then what ENC.O gives. -/
theorem openChannelIsSetupThenOpen : Obligations.OpenChannelIsSetupThenOpen := by
  intro r s
  refine ⟨?_, ?_, rfl⟩
  · rw [exec_openChannel, encodeSetup_bitRateCode]
    rfl
  · rw [← bitRateCode_eq_rateDigit, exec_encSetup, encodeSetup_bitRateCode]
    rfl

/-! ### The digits that the encoder emits -/

/-- The digit encoder is the emitted column of R83. -/
theorem valueToHexDigit_eq_hexUpper (v : Nibble) : valueToHexDigit v = hexUpper v.toNat := by
  revert v; decide

/-- The digit of four bits of a number, the lowest of them bit `lsb`. -/
theorem valueToHexDigit_extractLsb' {w : Nat} (v : BitVec w) (lsb : Nat) :
    valueToHexDigit (v.extractLsb' lsb 4) = hexUpper (v.toNat / 2 ^ lsb % 16) := by
  rw [valueToHexDigit_eq_hexUpper, BitVec.extractLsb'_toNat, Nat.shiftRight_eq_div_pow]

/-- Every emitted digit is in the column of R83. -/
theorem valueToHexDigit_mem_upperDigits (v : Nibble) : valueToHexDigit v ∈ upperDigits := by
  revert v; decide

/-- The length digit of a frame in range (R90). -/
theorem lengthDigit_eq_hexUpper {len : Nat} (h : len ≤ 8) : lengthDigit len = hexUpper len := by
  rw [lengthDigit, valueToHexDigit_eq_hexUpper, BitVec.toNat_ofNat, Nat.mod_eq_of_lt (by omega)]

/-- Digit `j` of a standard identifier, the most significant first (R89, R125). -/
theorem getElem?_u16To3Hex (v : BitVec 16) {j : Nat} (h : j < 3) :
    (u16To3Hex v)[j]? = some (hexUpper (v.toNat / 16 ^ (2 - j) % 16)) := by
  interval_cases j <;> simp [u16To3Hex, valueToHexDigit_extractLsb']

/-- Digit `j` of an extended identifier, the most significant first (R89, R126). -/
theorem getElem?_u32To8Hex (v : BitVec 32) {j : Nat} (h : j < 8) :
    (u32To8Hex v)[j]? = some (hexUpper (v.toNat / 16 ^ (7 - j) % 16)) := by
  interval_cases j <;> simp [u32To8Hex, valueToHexDigit_extractLsb']

/-- The pair of byte `i` of a payload, its high digit first (R91, R127). -/
theorem getElem?_bytesToHexPairs {p : List Byte} {i : Nat} {x : Byte} (h : p[i]? = some x) :
    (bytesToHexPairs p)[2 * i]? = some (hexUpper (x.toNat / 16)) ∧
    (bytesToHexPairs p)[2 * i + 1]? = some (hexUpper (x.toNat % 16)) := by
  induction p generalizing i with
  | nil => simp at h
  | cons y ys ih =>
    cases i with
    | zero =>
      obtain rfl : y = x := by simpa using h
      have hhigh : y.toNat / 16 % 16 = y.toNat / 16 := Nat.mod_eq_of_lt (by omega)
      simp [bytesToHexPairs, valueToHexDigit_extractLsb', hhigh]
    | succ i => simpa [bytesToHexPairs, Nat.mul_succ] using ih (by simpa using h)

/-! ### The byte at every position of a data frame's line -/

section FrameLine

variable {k : Kind} {idHex p : List Byte} {len : Nat}

theorem length_frameLine : (frameLine k idHex len p).length = 3 + idHex.length + 2 * p.length := by
  simp [frameLine_eq]; omega

theorem getElem?_frameLine_id {j : Nat} (h : j < idHex.length) :
    (frameLine k idHex len p)[1 + j]? = idHex[j]? := by
  rw [frameLine_eq, Nat.add_comm, List.getElem?_cons_succ, List.getElem?_append_left h]

theorem getElem?_frameLine_length : (frameLine k idHex len p)[1 + idHex.length]? = some (lengthDigit len) := by
  simp [frameLine_eq, Nat.add_comm 1]

theorem getElem?_frameLine_payload (n : Nat) :
    (frameLine k idHex len p)[2 + idHex.length + n]? = (bytesToHexPairs p ++ [Config.cr])[n]? := by
  have hn : 2 + idHex.length + n = idHex.length + (n + 1) + 1 := by omega
  rw [frameLine_eq, hn, List.getElem?_cons_succ, List.getElem?_append_right (by omega)]
  simp

end FrameLine

/-- The command byte of a class's frames (R81). -/
theorem commandByte_frameCommand (k : Kind) : commandByte (frameCommand k) = letter k := by
  cases k <;> rfl

/-- Byte `i` of the payload slice of a request. -/
theorem getElem?_payloadSlice {data : Payload} {len i : Nat} (hlt : i < len) (h : i < 8) :
    (payloadSlice data len)[i]? = some data[i] := by
  simp [payloadSlice, hlt, h]

/-- The line of a request in range has the byte of the table at every position, when its identifier field has
(R87, R88). -/
theorem isFrameLine_frameLine {k : Kind} {id len : Nat} {data : Payload} {idHex : List Byte}
    (hwidth : idHex.length = width k)
    (hid : ∀ j, j < width k → idHex[j]? = some (hexUpper (id / 16 ^ (width k - 1 - j) % 16))) (hlen : len ≤ 8) :
    IsFrameLine k id len data (frameLine k idHex len (payloadSlice data len)) := by
  have hpayload := length_payloadSlice (data := data) hlen
  refine ⟨?_, ?_, fun j hj => ?_, ?_, fun i hi hlt => ?_, ?_⟩
  · rw [length_frameLine, hwidth, hpayload]
  · rw [frameLine_eq, commandByte_frameCommand, List.getElem?_cons_zero]
  · rw [getElem?_frameLine_id (by omega), hid j hj]
  · rw [← hwidth, getElem?_frameLine_length, lengthDigit_eq_hexUpper hlen]
  · obtain ⟨hhigh, hlow⟩ := getElem?_bytesToHexPairs (getElem?_payloadSlice (data := data) hlt hi)
    have hpairs : 2 * i + 1 < (bytesToHexPairs (payloadSlice data len)).length := by simp [hpayload]; omega
    have hodd : 3 + idHex.length + 2 * i = 2 + idHex.length + (2 * i + 1) := by omega
    rw [← hwidth, hodd, getElem?_frameLine_payload, getElem?_frameLine_payload, List.getElem?_append_left hpairs,
      List.getElem?_append_left (by omega)]
    exact ⟨hhigh, hlow⟩
  · rw [← hwidth, getElem?_frameLine_payload, List.getElem?_append_right (by simp [hpayload])]
    simp [hpayload, Config.cr]

/-- Settles O15: an identifier in range fits 16 bits, so its three digits are those of the request. -/
theorem encStdGivesTheStandardLine : Obligations.EncStdGivesTheStandardLine := by
  intro id len data s hid hlen
  have hexec : exec (.encStd id len data) s =
      .next (s.emitTx [.ok (frameLine .std (u16To3Hex (id.setWidth 16)) len (payloadSlice data len))]) := by
    rw [exec_encStd, encodeStd_eq_ok.mpr ⟨hid, hlen, rfl⟩]
  refine ⟨_, hexec, isFrameLine_frameLine rfl (fun j hj => ?_) hlen⟩
  have hvalue : (id.setWidth 16).toNat = id.toNat := by
    rw [BitVec.toNat_setWidth, Nat.mod_eq_of_lt (by omega)]
  rw [getElem?_u16To3Hex _ hj, hvalue]
  rfl

/-- Settles O16: the identifier field is written from the request's identifier, whole. -/
theorem encExtGivesTheExtendedLine : Obligations.EncExtGivesTheExtendedLine := by
  intro id len data s hid hlen
  have hexec : exec (.encExt id len data) s =
      .next (s.emitTx [.ok (frameLine .ext (u32To8Hex id) len (payloadSlice data len))]) := by
    rw [exec_encExt, encodeExt_eq_ok.mpr ⟨hid, hlen, rfl⟩]
  exact ⟨_, hexec, isFrameLine_frameLine rfl (fun _ => getElem?_u32To8Hex id) hlen⟩

/-! ### The alphabet of the emitted lines -/

/-- The bytes that stand before the CR of an emitted line (R96). -/
def OutputByte (b : Byte) : Prop :=
  b ∈ upperDigits ∨ b = 0x53 ∨ b = 0x4F ∨ b = 0x43 ∨ b = 0x74 ∨ b = 0x54

/-- The form of an emitted line: 2 to 27 bytes (R93), the CR last and the output alphabet before it (R96). -/
def EmittedForm (line : List Byte) : Prop :=
  2 ≤ line.length ∧ line.length ≤ 27 ∧ line.getLast? = some 0x0D ∧ ∀ b, b ∈ line.dropLast → OutputByte b

theorem outputByte_commandByte (c : Command) : OutputByte (commandByte c) := by
  cases c <;> simp [OutputByte, commandByte]

theorem outputByte_valueToHexDigit (v : Nibble) : OutputByte (valueToHexDigit v) :=
  .inl (valueToHexDigit_mem_upperDigits v)

/-- A body of the alphabet, ended by CR. -/
theorem emittedForm_of_body {body : List Byte} (hmin : 1 ≤ body.length) (hmax : body.length ≤ 26)
    (hbody : ∀ b ∈ body, OutputByte b) : EmittedForm (body ++ [Config.cr]) := by
  refine ⟨?_, ?_, by simp [Config.cr], by simpa using hbody⟩ <;> simp <;> omega

/-- The line of a data frame, with an identifier field of 3 or 8 digits and at most 8 payload bytes. -/
theorem emittedForm_frameLine {k : Kind} {idHex p : List Byte} {len : Nat} (hwidth : idHex.length ≤ 8)
    (hid : ∀ c ∈ idHex, ∃ v, c = valueToHexDigit v) (hp : p.length ≤ 8) :
    EmittedForm (frameLine k idHex len p) := by
  refine emittedForm_of_body (by simp) (by simp; omega) fun b hb => ?_
  simp only [List.mem_append, List.mem_singleton] at hb
  rcases hb with ((rfl | hb) | rfl) | hb
  · exact outputByte_commandByte _
  · obtain ⟨v, rfl⟩ := hid b hb
    exact outputByte_valueToHexDigit v
  · exact outputByte_valueToHexDigit _
  · obtain ⟨v, rfl⟩ := mem_bytesToHexPairs hb
    exact outputByte_valueToHexDigit v

theorem emittedForm_of_encodeStd {id : BitVec 32} {len : Nat} {data : Payload} {line : List Byte}
    (h : encodeStd id len data = .ok line) : EmittedForm line := by
  obtain ⟨_, hlen, rfl⟩ := encodeStd_eq_ok.mp h
  exact emittedForm_frameLine (by simp) (fun _ => mem_u16To3Hex) ((length_payloadSlice hlen).trans_le hlen)

theorem emittedForm_of_encodeExt {id : BitVec 32} {len : Nat} {data : Payload} {line : List Byte}
    (h : encodeExt id len data = .ok line) : EmittedForm line := by
  obtain ⟨_, hlen, rfl⟩ := encodeExt_eq_ok.mp h
  exact emittedForm_frameLine (by simp) (fun _ => mem_u32To8Hex) ((length_payloadSlice hlen).trans_le hlen)

/-- The digits of the rates are those of R83. -/
theorem rateByte_mem_upperDigits {n : Nat} (h : n ≤ 8) : BitVec.ofNat 8 (0x30 + n) ∈ upperDigits := by
  interval_cases n <;> decide

theorem emittedForm_of_encodeSetup {rate : Nibble} {line : List Byte} (h : encodeSetup rate = .ok line) :
    EmittedForm line := by
  obtain ⟨hrate, rfl⟩ := encodeSetup_eq_ok.mp h
  refine emittedForm_of_body (body := [commandByte .setup, _]) (by simp) (by simp) fun b hb => ?_
  rcases List.mem_pair.mp hb with rfl | rfl
  · exact outputByte_commandByte _
  · exact .inl (rateByte_mem_upperDigits hrate)

/-- A line of one command byte (R85, R86). -/
theorem emittedForm_commandByte (c : Command) : EmittedForm [commandByte c, Config.cr] :=
  emittedForm_of_body (body := [commandByte c]) (by simp) (by simp) (by simpa using outputByte_commandByte c)

/-- Settles O25: a line on the transmit port is a response of the instruction, and each encode transaction gives lines
of this form only. -/
theorem emittedLinesUseTheOutputAlphabet : Obligations.EmittedLinesUseTheOutputAlphabet := by
  intro i s t line hi hexec hline
  change EmittedForm line
  cases i with
  | encStd id len data =>
    cases hexec
    exact emittedForm_of_encodeStd (List.mem_singleton.mp hline).symm
  | encExt id len data =>
    cases hexec
    exact emittedForm_of_encodeExt (List.mem_singleton.mp hline).symm
  | encSetup rate =>
    cases hexec
    exact emittedForm_of_encodeSetup (List.mem_singleton.mp hline).symm
  | encOpen =>
    cases hexec
    obtain rfl := Result.ok.inj (List.mem_singleton.mp hline)
    exact emittedForm_commandByte .openCh
  | encClose =>
    cases hexec
    obtain rfl := Result.ok.inj (List.mem_singleton.mp hline)
    exact emittedForm_commandByte .closeCh
  | openChannel r =>
    cases hexec
    rcases List.mem_pair.mp hline with h | h
    · exact emittedForm_of_encodeSetup h.symm
    · obtain rfl := Result.ok.inj h
      exact emittedForm_commandByte .openCh
  | encReserved op => simp [transmits] at hi
  | rxCr => simp [transmits] at hi
  | rxBel => simp [transmits] at hi
  | rxOther b => simp [transmits] at hi
  | decStd rest => simp [transmits] at hi
  | decExt rest => simp [transmits] at hi
  | decSetup rest => simp [transmits] at hi
  | decOpen rest => simp [transmits] at hi
  | decClose rest => simp [transmits] at hi
  | decOther line => simp [transmits] at hi

end Sys2Proof.Machine

/-! PROOFS. The Hex Codec: its decoding half accepts the digits of the table and no others, a pair is an accumulation of
two digits, and accumulating the digits of a value gives it back (40_hex_codec.md). -/

namespace Sys2Proof.Machine

open Sys2Proof.Spec

/-- Settles O11: the digit decoder is the table, and the table's values are below 16. -/
theorem digitToValueIsTheTable : Obligations.DigitToValueIsTheTable := by
  refine fun b => ⟨fun v hv => ⟨?_, hexValue_lt hv⟩, fun hb => ?_⟩
  · simp [digitToValue_eq_hexValue, hv]
  · simp [digitToValue_eq_hexValue, hb]

/-- A pair is read as a field of two digits. -/
theorem byteFromHexPair_eq_accumulateHex (h l : Byte) : byteFromHexPair h l = accumulateHex 8 0 [h, l] := by
  simp [byteFromHexPair, accumulateHex]

/-- Settles O12: the two digits of a pair fit 8 bits, and the value of a field has its first digit in front. -/
theorem hexPairIsHighNibbleFirst : Obligations.HexPairIsHighNibbleFirst := by
  refine fun h l => ⟨fun x y hx hy => ?_, fun hbad => ?_⟩
  · have hdigits : ∀ c ∈ [h, l], (hexValue c).isSome = true := by simp [hx, hy]
    obtain ⟨v, hv, hval⟩ := accumulateHex_of_digits (w := 8) (acc := 0) (by decide) hdigits (by simp)
    refine ⟨v, (byteFromHexPair_eq_accumulateHex h l).trans hv, ?_⟩
    simp [hval, hx, hy, fieldValue, mul_comm]
  · rw [byteFromHexPair_eq_accumulateHex]
    exact accumulateHex_of_mem_not_digit (by simpa using hbad) 0

/-! ### The digits of a value -/

/-- The bytes of the lowest `n` hex digits of a value, the most significant first. -/
def hexDigits {w : Nat} (v : BitVec w) : Nat → List Byte
  | 0 => []
  | n + 1 => valueToHexDigit (v.extractLsb' (4 * n) 4) :: hexDigits v n

theorem u16To3Hex_eq_hexDigits (v : BitVec 16) : u16To3Hex v = hexDigits v 3 := rfl

theorem u32To8Hex_eq_hexDigits (v : BitVec 32) : u32To8Hex v = hexDigits v 8 := rfl

theorem hexPair_eq_hexDigits (x : Byte) :
    [valueToHexDigit (x.extractLsb' 4 4), valueToHexDigit (x.extractLsb' 0 4)] = hexDigits x 2 := rfl

/-- The leading bits of a value, with the next four shifted in from the right, are those one digit further. -/
theorem shiftIn_extractLsb' {w : Nat} (v : BitVec w) (lsb : Nat) :
    ((v >>> (lsb + 4)) <<< 4) ||| (v.extractLsb' lsb 4).setWidth w = v >>> lsb := by
  ext i hi
  by_cases hlow : i < 4
  · simp [hlow]
  · have hpos : lsb + 4 + (i - 4) = lsb + i := by omega
    simp [hlow, hpos]

/-- Accumulating the remaining digits of a value onto the bits before them gives the value. -/
theorem accumulateHex_hexDigits {w : Nat} (v : BitVec w) (n : Nat) :
    accumulateHex w (v >>> (4 * n)) (hexDigits v n) = .ok v := by
  induction n with
  | zero => simp [hexDigits, accumulateHex]
  | succ n ih => simpa [hexDigits, accumulateHex, Nat.mul_succ, shiftIn_extractLsb'] using ih

/-- A field with room for the value gives it back from nothing. -/
theorem accumulateHex_zero_hexDigits {w : Nat} {v : BitVec w} {n : Nat} (h : v.toNat < 2 ^ (4 * n)) :
    accumulateHex w 0 (hexDigits v n) = .ok v := by
  have hleading : v >>> (4 * n) = 0 := by
    apply BitVec.eq_of_toNat_eq
    simp [Nat.shiftRight_eq_div_pow, Nat.div_eq_of_lt h]
  rw [← hleading, accumulateHex_hexDigits]

/-! ### The inverse laws -/

/-- The bits 15 to 12 are not encoded, so they have to be zero. -/
theorem u16From3Hex_u16To3Hex {v : BitVec 16} (h : v.toNat ≤ 0xFFF) : u16From3Hex (u16To3Hex v) = .ok v := by
  rw [u16From3Hex, u16To3Hex_eq_hexDigits]
  exact accumulateHex_zero_hexDigits (Nat.lt_succ_of_le h)

@[simp] theorem u32From8Hex_u32To8Hex (v : BitVec 32) : u32From8Hex (u32To8Hex v) = .ok v := by
  rw [u32From8Hex, u32To8Hex_eq_hexDigits]
  exact accumulateHex_zero_hexDigits v.isLt

@[simp] theorem byteFromHexPair_valueToHexDigit (x : Byte) :
    byteFromHexPair (valueToHexDigit (x.extractLsb' 4 4)) (valueToHexDigit (x.extractLsb' 0 4)) = .ok x := by
  rw [byteFromHexPair_eq_accumulateHex, hexPair_eq_hexDigits]
  exact accumulateHex_zero_hexDigits x.isLt

/-- Settles O14: each encoder gives the digits of its value, and they accumulate to it. -/
theorem hexDecodingInvertsHexEncoding : Obligations.HexDecodingInvertsHexEncoding :=
  ⟨digitToValue_valueToHexDigit, fun x => ⟨_, _, rfl, byteFromHexPair_valueToHexDigit x⟩,
    fun _ => u16From3Hex_u16To3Hex, u32From8Hex_u32To8Hex⟩

end Sys2Proof.Machine

/-! PROOFS. The Frame Encoder: the response to a frame request of either class, the requests that it rejects or
refuses, and the port value that an instruction decodes from and encodes to (41_frame_encoder.md, 30_encoding.md
section 5). -/

namespace Sys2Proof.Machine

open Sys2Proof.Spec Sys2Proof.Laws

/-! ### Decoding and encoding -/

/-- What a transmit request decodes to (R99). -/
theorem decodeTx_cases (r : TxRequest) :
    (r.op = 0 ∧ decodeTx r = .encStd r.id r.len r.data) ∨ (r.op = 1 ∧ decodeTx r = .encExt r.id r.len r.data) ∨
    (r.op = 2 ∧ decodeTx r = .encSetup r.rate) ∨ (r.op = 3 ∧ decodeTx r = .encOpen) ∨
    (r.op = 4 ∧ decodeTx r = .encClose) ∨ (4 < r.op ∧ decodeTx r = .encReserved r.op) := by
  have hcodes : ∀ op : BitVec 3, op = 0 ∨ op = 1 ∨ op = 2 ∨ op = 3 ∨ op = 4 ∨ 4 < op := by decide
  obtain ⟨e0, e1, e2, e3, e4, e5⟩ := eachTransmitCodeSelectsItsOperation r
  rcases hcodes r.op with h | h | h | h | h | h
  · exact .inl ⟨h, e0 h⟩
  · exact .inr (.inl ⟨h, e1 h⟩)
  · exact .inr (.inr (.inl ⟨h, e2 h⟩))
  · exact .inr (.inr (.inr (.inl ⟨h, e3 h⟩)))
  · exact .inr (.inr (.inr (.inr (.inl ⟨h, e4 h⟩))))
  · exact .inr (.inr (.inr (.inr (.inr ⟨h, e5 h⟩))))

theorem wellFormed_decodeTx (r : TxRequest) : (decodeTx r).wellFormed = true := by
  rcases decodeTx_cases r with ⟨_, e⟩ | ⟨_, e⟩ | ⟨_, e⟩ | ⟨_, e⟩ | ⟨_, e⟩ | ⟨h, e⟩ <;> rw [e]
  · rfl
  · rfl
  · rfl
  · rfl
  · rfl
  · exact decide_eq_true (BitVec.lt_def.mp h)

theorem wellFormed_decodeRx (b : Byte) : (decodeRx b).wellFormed = true := by
  rcases decodeRx_cases b with ⟨_, e⟩ | ⟨_, e⟩ | ⟨hcr, hbel, e⟩ <;> rw [e]
  · rfl
  · rfl
  · simp [Instr.wellFormed, hcr, hbel]

theorem wellFormed_decodeLineWord (L : List Byte) : (decodeLineWord L).wellFormed = true := by
  cases L with
  | nil => rfl
  | cons b rest =>
    rcases decodeLineWord_cons b rest with ⟨c, rfl⟩ | ⟨hnone, e⟩
    · cases c <;> rfl
    · rw [e, Instr.wellFormed, hnone]
      rfl

/-- The decoder gives only instructions of the block. -/
theorem wellFormed_decode (w : PortWord) : (decode w).wellFormed = true := by
  cases w with
  | tx r => exact wellFormed_decodeTx r
  | rx b => exact wellFormed_decodeRx b
  | line L => exact wellFormed_decodeLineWord L
  | openChannel r => rfl

/-- A transmit request comes back with the fields that its operation ignores at zero (R140). -/
theorem encode_decodeTx (r : TxRequest) : encode (decodeTx r) = canonicalWord (.tx r) := by
  have hreserved : ∀ op : BitVec 3, 4 < op → op ≠ 0 ∧ op ≠ 1 ∧ op ≠ 2 := by decide
  rcases decodeTx_cases r with ⟨h, e⟩ | ⟨h, e⟩ | ⟨h, e⟩ | ⟨h, e⟩ | ⟨h, e⟩ | ⟨h, e⟩ <;> rw [e]
  · simp [canonicalWord, encode, h]
  · simp [canonicalWord, encode, h]
  · simp [canonicalWord, encode, h]
  · simp [canonicalWord, encode, h]
  · simp [canonicalWord, encode, h]
  · obtain ⟨hne0, hne1, hne2⟩ := hreserved r.op h
    rw [canonicalWord, if_neg (not_or.mpr ⟨hne0, hne1⟩), if_neg hne2, encode]

theorem encode_decodeRx (b : Byte) : encode (decodeRx b) = .rx b := by
  rcases decodeRx_cases b with ⟨rfl, e⟩ | ⟨rfl, e⟩ | ⟨_, _, e⟩ <;> rw [e] <;> rfl

theorem encode_decodeLineWord (L : List Byte) : encode (decodeLineWord L) = .line L := by
  cases L with
  | nil => rfl
  | cons b rest =>
    rcases decodeLineWord_cons b rest with ⟨c, rfl⟩ | ⟨_, e⟩
    · cases c <;> rfl
    · rw [e]
      rfl

/-- Encoding what was decoded gives the canonical form of the port value. -/
theorem encode_decode (w : PortWord) : encode (decode w) = canonicalWord w := by
  cases w with
  | tx r => exact encode_decodeTx r
  | rx b => exact encode_decodeRx b
  | line L => exact encode_decodeLineWord L
  | openChannel r => rfl

/-- A well-formed instruction comes back from its own port value. -/
theorem decode_encode (i : Instr) : i.wellFormed = true → decode (encode i) = i := by
  cases i with
  | encStd id len data => exact EncodedBack.encStd id len data
  | encExt id len data => exact EncodedBack.encExt id len data
  | encSetup rate => exact EncodedBack.encSetup rate
  | encOpen => exact EncodedBack.encOpen
  | encClose => exact EncodedBack.encClose
  | encReserved op => exact EncodedBack.encReserved op
  | openChannel r => exact EncodedBack.openChannel r
  | rxCr => exact EncodedBack.rxCr
  | rxBel => exact EncodedBack.rxBel
  | rxOther b => exact EncodedBack.rxOther b
  | decStd rest => exact EncodedBack.decStd rest
  | decExt rest => exact EncodedBack.decExt rest
  | decSetup rest => exact EncodedBack.decSetup rest
  | decOpen rest => exact EncodedBack.decOpen rest
  | decClose rest => exact EncodedBack.decClose rest
  | decOther line => exact EncodedBack.decOther line

/-- Settles O2: the instructions one by one, and the port values port by port. -/
theorem decodeAndEncodeAgree : Obligations.DecodeAndEncodeAgree :=
  ⟨decode_encode, wellFormed_decode, encode_decode⟩

/-! ### The response to a frame request -/

/-- The identifier field that the encoder writes for a class (R89). -/
def identifierHex : Kind → BitVec 32 → List Byte
  | .std, id => u16To3Hex (id.setWidth 16)
  | .ext, id => u32To8Hex id

/-- The response to a frame request of either class: the identifier check, the length check, the line (R148). -/
def frameResponse (k : Kind) (id : BitVec 32) (len : Nat) (data : Payload) : Response :=
  if maxId k < id.toNat then .err .identifierOutOfRange
  else if 8 < len then .err .invalidLength
  else .ok (frameLine k (identifierHex k id) len (payloadSlice data len))

/-- Both encode instructions give this response. -/
theorem exec_encodeInstr (k : Kind) (id : BitVec 32) (len : Nat) (data : Payload) (s : State) :
    exec (encodeInstr k id len data) s = .next (s.emitTx [frameResponse k id len data]) := by
  cases k <;> rfl

/-- The slice is decided by the bytes below the length. -/
theorem payloadSlice_congr {data data' : Payload} {len : Nat}
    (h : ∀ i (hi : i < 8), i < len → data[i] = data'[i]) : payloadSlice data len = payloadSlice data' len := by
  refine List.ext_getElem (by simp [payloadSlice]) fun i hi _ => ?_
  obtain ⟨hlen, h8⟩ : i < len ∧ i < 8 := by simpa [payloadSlice] using hi
  simpa [payloadSlice] using h i h8 hlen

/-- Settles O24: a response depends on the container through its slice alone. -/
theorem payloadBeyondLengthIsNotRead : Obligations.PayloadBeyondLengthIsNotRead := by
  intro k id len data data' s h
  rw [exec_encodeInstr, exec_encodeInstr, frameResponse, frameResponse, payloadSlice_congr h]

/-! ### Requests that are rejected or refused -/

/-- Settles O17: the identifier passes its check, and the length does not. -/
theorem encodeRejectsLongPayload : Obligations.EncodeRejectsLongPayload := by
  intro k id len data s hid hlen
  rw [exec_encodeInstr, frameResponse, if_neg (Nat.not_lt.mpr hid), if_pos hlen]
  rfl

/-- Settles O18: the identifier's check comes first. -/
theorem encodeRejectsIdentifierFirst : Obligations.EncodeRejectsIdentifierFirst := by
  intro k id len data s hid
  rw [exec_encodeInstr, frameResponse, if_pos hid]
  rfl

/-- Settles O20: the rate does not pass the check of EncSetup. -/
theorem setupRejectsRateAboveEight : Obligations.SetupRejectsRateAboveEight := by
  intro rate s h
  have hrate : 8 < rate := BitVec.lt_def.mpr h
  rw [exec_encSetup, encodeSetup, if_pos hrate]
  rfl

/-- Settles O22: the step runs what the request decodes to, which is ENC.reserved with its code. -/
theorem reservedTransmitCodesAreRefused : Obligations.ReservedTransmitCodesAreRefused := by
  refine ⟨exec_encReserved, fun s a r rest hp howner hop => ?_⟩
  have hdecode : decode (.tx r) = .encReserved r.op := decodeTx_reserved (BitVec.lt_def.mpr hop)
  rw [stepRunsTheDecodedInstruction s a (.tx r) rest hp howner, hdecode, exec_encReserved]

end Sys2Proof.Machine

/-! PROOFS. The Frame Reassembler: each rule of the receive path as an equation, the receive steps that complete, a line
that overflows, and the reading of a stream in several calls (42_reassembler.md, 44_channel_interface.md R215). -/

namespace Sys2Proof.Machine

open Sys2Proof.Spec

/-! ### The rules of the receive path, one equation each -/

section Rules

variable {P : Params} {s : State}

@[simp] theorem exec_rxCr (s : State) : exec .rxCr s = rxCr params s := rfl

@[simp] theorem exec_rxBel (s : State) : exec .rxBel s = rxBel params s := rfl

@[simp] theorem exec_rxOther (b : Byte) (s : State) : exec (.rxOther b) s = rxOther params b s := rfl

/-- A line that has overflowed is discarded (R162). -/
theorem rxCr_of_desynced (hd : s.desynced = true) : rxCr P s = .next (s.endLine (.discard .overflowed)) := by
  simp [rxCr, hd]

/-- A line below the minimum is discarded (R162). -/
theorem rxCr_of_short (hd : s.desynced = false) (hf : s.filled < P.minValid) :
    rxCr P s = .next (s.endLine (.discard .tooShort)) := by
  simp [rxCr, hd, hf]

/-- A buffered line within the capacity can be read (R162, R169). -/
theorem line_of_buffered {L : List Byte} (hL : Buffered s L) (hcap : s.filled ≤ P.capacity) : s.line P = .ok L := by
  obtain ⟨hlen, hread⟩ := hL
  rw [State.line, ← hlen]
  exact Memory.readCells_eq_ok (by omega) (by simpa using hread)

/-- Any other line is decoded (R162). -/
theorem rxCr_of_buffered {L : List Byte} (hd : s.desynced = false) (hmin : P.minValid ≤ s.filled)
    (hcap : s.filled ≤ P.capacity) (hL : Buffered s L) :
    rxCr P s = .next (s.endLine (eventOfDecode (decodeLine L))) := by
  simp [rxCr, hd, Nat.not_lt.mpr hmin, line_of_buffered hL hcap]

theorem rxBel_of_abort (hp : P.belPolicy = .abort) : rxBel P s = .next (s.endLine (.discard .aborted)) := by
  simp only [rxBel, hp]

theorem rxBel_of_asCr (hp : P.belPolicy = .asCr) : rxBel P s = rxCr P s := by
  simp only [rxBel, hp]

/-- While discarding a byte is dropped (R166). -/
theorem rxOther_of_desynced {b : Byte} (hd : s.desynced = true) : rxOther P b s = .next (s.emitRx .none) := by
  simp [rxOther, hd]

/-- With room left a byte is appended (R164). -/
theorem rxOther_of_room {b : Byte} (hd : s.desynced = false) (hf : s.filled < P.capacity) :
    rxOther P b s = .next ((s.append b).emitRx .none) := by
  simp [rxOther, hd, hf]

/-- At a full buffer a byte overflows (R165). -/
theorem rxOther_of_full {b : Byte} (hd : s.desynced = false) (hf : s.filled = P.capacity) :
    rxOther P b s = .next (s.setDesynced.emitRx .none) := by
  simp [rxOther, hd, hf]

end Rules

/-- Settles O26: each case is one rule of RX.CR, and the bytes that the hypotheses name are the buffered line. -/
theorem carriageReturnEndsTheLine : Obligations.CarriageReturnEndsTheLine := by
  refine fun s => ⟨rxCr_of_desynced, fun hd hf => rxCr_of_short hd (Nat.lt_succ_of_le hf), ?_⟩
  intro L hd hmin hcap hlen hread
  rw [exec_rxCr, rxCr_of_buffered (P := params) hd hmin hcap ⟨hlen, hread⟩]
  refine ⟨fun f hf => ?_, fun c hc => ?_⟩
  · rw [hf]; rfl
  · rw [hc]; rfl

/-- Settles O27: the block's own policy is `Abort`. -/
theorem bellAbortsTheLine : Obligations.BellAbortsTheLine :=
  ⟨fun s => (exec_rxBel s).trans (rxBel_of_abort rfl), fun _ _ => rxBel_of_abort, fun _ _ => rxBel_of_asCr⟩

/-- Settles O28: the append writes the cell at `filled`. -/
theorem ordinaryByteIsAppended : Obligations.OrdinaryByteIsAppended := fun b s _ _ hd hf =>
  ⟨_, rxOther_of_room hd hf, rfl, rfl, Memory.read_write_same s.buf s.filled b, fun _ => Memory.read_write_other, rfl⟩

/-- Settles O29: the other two rules of RX.other. -/
theorem fullBufferOverflowsAndDiscardingDrops : Obligations.FullBufferOverflowsAndDiscardingDrops := fun _ _ _ _ =>
  ⟨rxOther_of_full, rxOther_of_desynced⟩

/-! ### The invariant, for any parameters -/

namespace State.Inv

variable {P : Params} {s t : State} {b : Byte}

/-- What RX.other completes with on a line byte meets the invariant. -/
theorem of_rxOther_next (h : s.Inv P) (hb : LineByte b) (he : rxOther P b s = .next t) : t.Inv P := by
  rcases rxOther_cases P b s with ⟨_, e⟩ | ⟨hd, hlt, e⟩ | ⟨_, hfull, e⟩ | ⟨_, _, e⟩ <;> cases e.symm.trans he
  · exact h.of_reassembly_eq rfl
  · exact (h.append hd hlt hb).of_reassembly_eq rfl
  · exact (h.setDesynced hfull).of_reassembly_eq rfl

end State.Inv

/-- Settles O55: a delimiter completes by ending the line, and RX.other by one of its rules. -/
theorem receiveRulesKeepTheInvariantForAnyParameters :
    Obligations.ReceiveRulesKeepTheInvariantForAnyParameters := by
  rintro P s t b hinv hb (h | h | h)
  · obtain ⟨ev, _, rfl⟩ := rxCr_next h
    exact hinv.endLine ev
  · obtain ⟨ev, _, rfl⟩ := rxBel_next h
    exact hinv.endLine ev
  · exact hinv.of_rxOther_next hb h

/-! ### Receive steps -/

/-- On a line byte the receive step is RX.other (R161). -/
theorem rxStep_of_rxOther_next {b : Byte} {s t : State} (hb : LineByte b) (h : rxOther params b s = .next t) :
    rxStep b s = .next (t, t.rxOut.getD .none) := by
  have hdecode : decode (.rx b) = .rxOther b := eachReceiveByteSelectsOneOperation.2.2 b hb.1 hb.2
  exact rxStep_of_next (by rw [hdecode, exec_rxOther, h])

/-- RX.other completes unless the line is longer than the buffer (R33). -/
theorem exists_rxOther_next {P : Params} {s : State} (b : Byte) (hf : s.filled ≤ P.capacity) :
    ∃ t, rxOther P b s = .next t := by
  rcases rxOther_cases P b s with ⟨_, e⟩ | ⟨_, _, e⟩ | ⟨_, _, e⟩ | ⟨_, hgt, _⟩
  · exact ⟨_, e⟩
  · exact ⟨_, e⟩
  · exact ⟨_, e⟩
  · exact absurd hgt (Nat.not_lt.mpr hf)

namespace State.Inv

variable {s t : State} {b : Byte} {ev : Event}

/-- In a state of the invariant no byte is refused or held back (R160). -/
theorem exists_rxStep_next (h : s.Inv params) (b : Byte) : ∃ t ev, rxStep b s = .next (t, ev) := by
  have hcomplete : ∃ t, Machine.exec (decode (.rx b)) s = .next t := by
    rcases decodeRx_cases b with ⟨_, e⟩ | ⟨_, e⟩ | ⟨_, _, e⟩ <;> rw [decode, e]
    · exact h.exists_rxCr_next
    · exact h.exists_rxBel_next
    · exact exists_rxOther_next b h.bounded
  obtain ⟨t, ht⟩ := hcomplete
  exact ⟨t, _, rxStep_of_next ht⟩

/-- A receive step keeps the invariant. -/
theorem of_rxStep_next (h : s.Inv params) (hs : rxStep b s = .next (t, ev)) : t.Inv params := by
  cases he : Machine.exec (decode (.rx b)) s with
  | next u =>
    cases (rxStep_of_next he).symm.trans hs
    exact h.exec (fun _ => lineByte_of_decode_eq_rxOther) he
  | fault f => simp [rxStep, he] at hs
  | refused r => simp [rxStep, he] at hs

/-- Any string can be fed to a block in the invariant. -/
theorem exists_rxFeed_next (h : s.Inv params) (bs : List Byte) : ∃ t evs, rxFeed bs s = .next (t, evs) := by
  induction bs generalizing s with
  | nil => exact ⟨s, [], rfl⟩
  | cons b bs ih =>
    obtain ⟨t, ev, hstep⟩ := h.exists_rxStep_next b
    obtain ⟨u, evs, hfeed⟩ := ih (h.of_rxStep_next hstep)
    exact ⟨u, ev :: evs, rxFeed_cons_next hstep hfeed⟩

end State.Inv

/-- The event of a receive step is `None` exactly at a line byte (R170 law 3). -/
theorem rxStep_event_eq_none_iff {b : Byte} {s t : State} {ev : Event} (h : rxStep b s = .next (t, ev)) :
    ev = .none ↔ LineByte b := by
  rcases rxStep_cases h with ⟨hb, hne, _⟩ | ⟨hb, hev, _⟩
  · exact iff_of_false hne fun hline => hb.elim hline.1 hline.2
  · exact iff_of_true hev hb

/-- Settles O33: the step completes by the invariant, and its event is `None` exactly at a line byte. -/
theorem everyByteIsConsumedWithItsEvent : Obligations.EveryByteIsConsumedWithItsEvent := by
  intro s b hinv
  obtain ⟨t, ev, h⟩ := hinv.exists_rxStep_next b
  exact ⟨t, ev, h, rxStep_event_eq_none_iff h⟩

/-! ### A line that overflows -/

/-- Line bytes give no event, and they leave the line overflowed exactly if it was or they have no room (R164 to
R166). -/
theorem rxFeed_lineBytes {bs : List Byte} {s : State} (hbs : LineBytes bs) (hf : s.filled ≤ params.capacity) :
    ∃ t, rxFeed bs s = .next (t, List.replicate bs.length .none) ∧
      (t.desynced = true ↔ s.desynced = true ∨ params.capacity < s.filled + bs.length) := by
  induction bs generalizing s with
  | nil => exact ⟨s, rfl, by simp [Nat.not_lt.mpr hf]⟩
  | cons b bs ih =>
    obtain ⟨hb, hrest⟩ := List.forall_mem_cons.mp hbs
    rcases rxOther_cases params b s with ⟨hd, e⟩ | ⟨hd, hlt, e⟩ | ⟨hd, hfull, e⟩ | ⟨_, hgt, _⟩
    · obtain ⟨t, hfeed, ht⟩ := ih (s := s.emitRx .none) hrest hf
      exact ⟨t, rxFeed_cons_next (rxStep_of_rxOther_next hb e) hfeed, by simp [ht, hd]⟩
    · obtain ⟨t, hfeed, ht⟩ := ih (s := (s.append b).emitRx .none) hrest hlt
      refine ⟨t, rxFeed_cons_next (rxStep_of_rxOther_next hb e) hfeed, ?_⟩
      simp [ht, hd, Nat.add_assoc, Nat.add_comm 1]
    · obtain ⟨t, hfeed, ht⟩ := ih (s := s.setDesynced.emitRx .none) hrest hf
      exact ⟨t, rxFeed_cons_next (rxStep_of_rxOther_next hb e) hfeed, by simp [ht, hfull]⟩
    · exact absurd hgt (Nat.not_lt.mpr hf)

/-- Settles O39: the line bytes leave the line overflowed, and the CR discards it. -/
theorem overflowHealsAtTheDelimiter : Obligations.OverflowHealsAtTheDelimiter := by
  rintro s bs ⟨hf, hd⟩ hbs hlong
  obtain ⟨t, hfeed, ht⟩ := rxFeed_lineBytes (s := s) hbs (by omega)
  have hover : t.desynced = true := ht.mpr (.inr (by omega))
  have hcr : exec (decode (.rx 0x0D)) t = .next (t.endLine (.discard .overflowed)) :=
    (exec_rxCr t).trans (rxCr_of_desynced hover)
  exact ⟨_, rxFeed_append hfeed (rxFeed_cons_next (rxStep_of_next hcr) rfl), rfl, rfl⟩

/-! ### Reading a stream in several calls -/

/-- A stream of bytes alone. -/
@[simp] theorem streamBytes_map_byte (bs : List Byte) : streamBytes (bs.map .byte) = bs := by
  induction bs with
  | nil => rfl
  | cons b bs ih => rw [List.map_cons, streamBytes, ih]

/-- One `read` of a stream that can be fed: it takes an answer, unless there is none, and reports the first line of the
stream or no line; feeding what it leaves ends with the same block and gives the events of the other lines. -/
theorem readLoop_of_rxFeed {script : List TransportRead} {s t : State} {evs : List Event}
    (h : rxFeed (streamBytes script) s = .next (t, evs)) :
    ∃ u rest r evs', readLoop script s = .next (u, rest, r) ∧ rest.length ≤ script.length - 1 ∧
      rxFeed (streamBytes rest) u = .next (t, evs') ∧
      [r].filter reportsLine ++ evs'.filterMap lineResult = evs.filterMap lineResult := by
  induction script generalizing s evs with
  | nil => exact ⟨s, [], _, evs, rfl, Nat.le_refl 0, h, rfl⟩
  | cons a script ih =>
    cases a with
    | noData => exact ⟨s, script, _, evs, rfl, Nat.le_refl _, h, rfl⟩
    | ioError e => exact ⟨s, script, _, evs, rfl, Nat.le_refl _, h, rfl⟩
    | byte b =>
      obtain ⟨v, ev, evs, hstep, hfeed, rfl⟩ := rxFeed_cons_cases h
      cases ev with
      | none =>
        obtain ⟨u, rest, r, evs', hread, hlen, hrest, hreport⟩ := ih hfeed
        have hlen' : rest.length ≤ script.length := by omega
        exact ⟨u, rest, r, evs', by simpa [readLoop, hstep] using hread, hlen', hrest, hreport⟩
      | frame f => exact ⟨v, script, .ok f, evs, by simp [readLoop, hstep], Nat.le_refl _, hfeed, rfl⟩
      | decodeError c =>
        exact ⟨v, script, .err (.code c), evs, by simp [readLoop, hstep], Nat.le_refl _, hfeed, rfl⟩
      | discard d =>
        exact ⟨v, script, .err .wouldBlock, evs, by simp [readLoop, hstep], Nat.le_refl _, hfeed, rfl⟩

/-- Enough reads of a stream that can be fed take all of it, end with the block that feeding it gives, and report the
lines of its events in order. -/
theorem readTimes_of_rxFeed {c : Channel} {script : List TransportRead} {n : Nat} {t : State} {evs : List Event}
    (hn : script.length ≤ n) (h : rxFeed (streamBytes script) c.block = .next (t, evs)) :
    ∃ rs, (withReads c script).readTimes n = .next (withReads { c with block := t } [], rs) ∧
      rs.filter reportsLine = evs.filterMap lineResult := by
  induction n generalizing c script evs with
  | zero =>
    obtain rfl := List.eq_nil_of_length_eq_zero (Nat.le_zero.mp hn)
    cases h
    exact ⟨[], rfl, rfl⟩
  | succ n ih =>
    obtain ⟨u, rest, r, evs', hloop, hlen, hfeed, hreport⟩ := readLoop_of_rxFeed h
    have hread : (withReads c script).read = .next (withReads { c with block := u } rest, r) := by
      simp [Channel.read, withReads, hloop]
    obtain ⟨rs, hreads, hrs⟩ := ih (c := { c with block := u }) (script := rest) (by omega) hfeed
    refine ⟨r :: rs, by simp [Channel.readTimes, hread, hreads], ?_⟩
    rw [← hreport, ← hrs, ← List.filter_append, List.singleton_append]

/-- Settles O38: the stream can be fed by the invariant, and it is read, split or not, with the bytes in their order. -/
theorem feedingIsResumableAtAnyByte : Obligations.FeedingIsResumableAtAnyByte := by
  intro c script n m hinv hn hm
  obtain ⟨t, evs, hfeed⟩ := hinv.exists_rxFeed_next (streamBytes script)
  obtain ⟨rs, hsplit, hrs⟩ := readTimes_of_rxFeed hn hfeed
  obtain ⟨us, hunsplit, hus⟩ := readTimes_of_rxFeed (c := c) (script := (streamBytes script).map .byte) (n := m)
    (by simpa using hm) (by simpa using hfeed)
  exact ⟨t, evs, rs, us, hfeed, hsplit, hunsplit, hrs, hus⟩

end Sys2Proof.Machine

/-! PROOFS. The Line Decoder: what each field of a data line reads as, the rules of a data line assembled from its
fields, the line of an encoded frame read back whole or cut off, and the same line on the wire
(43_line_decoder.md). -/

namespace Sys2Proof.Machine

open Sys2Proof.Spec

/-! ### The command byte and the instructions -/

/-- Settles O5: each of the five command bytes is recognised as itself, and so no other byte is. -/
theorem commandBytesAreMatchedExactly : Obligations.CommandBytesAreMatchedExactly := by
  refine fun b => ⟨commandOf_eq_some, commandOf_eq_some, commandOf_eq_some, commandOf_eq_some, commandOf_eq_some, ?_⟩
  rw [Option.eq_none_iff_forall_ne_some]
  simp only [ne_eq, commandOf_eq_some]
  constructor
  · exact fun h => ⟨h .setup, h .openCh, h .closeCh, h .transmitStandard, h .transmitExtended⟩
  · rintro ⟨hsetup, hopen, hclose, hstd, hext⟩ c
    cases c with
    | setup => exact hsetup
    | openCh => exact hopen
    | closeCh => exact hclose
    | transmitStandard => exact hstd
    | transmitExtended => exact hext

section Exec

variable (rest : List Byte) (s : State)

@[simp] theorem exec_decStd : exec (.decStd rest) s = .next (s.emitDec (decodeData .std (letter .std :: rest))) := rfl

@[simp] theorem exec_decExt : exec (.decExt rest) s = .next (s.emitDec (decodeData .ext (letter .ext :: rest))) := rfl

@[simp] theorem exec_decSetup : exec (.decSetup rest) s = .next (s.emitDec (.err .notDataFrame)) := rfl

@[simp] theorem exec_decOpen : exec (.decOpen rest) s = .next (s.emitDec (.err .notDataFrame)) := rfl

@[simp] theorem exec_decClose : exec (.decClose rest) s = .next (s.emitDec (.err .notDataFrame)) := rfl

@[simp] theorem exec_decOther : exec (.decOther rest) s = .next (s.emitDec (.err .notDataFrame)) := rfl

end Exec

/-- A line presented to the Line Decoder's input gives what `decodeLine` gives (R180). -/
theorem exec_decode_line (L : List Byte) (s : State) :
    exec (decode (.line L)) s = .next (s.emitDec (decodeLine L)) := by
  cases L with
  | nil => rfl
  | cons b rest =>
    rcases decodeLineWord_cons b rest with ⟨c, rfl⟩ | ⟨hnone, e⟩
    · cases c <;> rfl
    · rw [decode, e, exec_decOther, decodeLine, hnone, rejectLine]

/-- The line of a class's command letter is a data line of that class (R180). -/
theorem decodeLine_of_letter {k : Kind} {L : List Byte} (h : L[0]? = some (letter k)) :
    decodeLine L = decodeData k L := by
  obtain ⟨rest, rfl⟩ : ∃ rest, L = letter k :: rest := by
    cases L with
    | nil => simp at h
    | cons b rest => exact ⟨rest, by simpa using h⟩
  cases k <;> rfl

/-- Settles O43: these instructions do not read their line. -/
theorem commandLinesAreNotDataFrames : Obligations.CommandLinesAreNotDataFrames := fun rest s =>
  ⟨exec_decSetup rest s, exec_decOpen rest s, exec_decClose rest s⟩

/-- Settles O44: a line without a command byte is dispatched to DEC.other, and the empty line is too. -/
theorem unrecognisedLinesAreNotDataFrames : Obligations.UnrecognisedLinesAreNotDataFrames := by
  refine fun L s h => ⟨?_, exec_decOther L s⟩
  cases L with
  | nil => rfl
  | cons b rest => rw [decode, decodeLineWord, h b rfl]

/-- Settles O46: a decoder instruction only shows its result on the decoder's output. -/
theorem decodingWritesNoState : Obligations.DecodingWritesNoState := by
  intro i s hi
  obtain ⟨r, e⟩ := exec_decodesLine hi
  exact ⟨s.emitDec r, e s, rfl, fun _ => rfl, rfl, rfl, rfl, rfl⟩

/-! ### The digits of a line -/

theorem idDigits_eq_width (k : Kind) : idDigits k = width k := by
  cases k <;> rfl

theorem three_le_width (k : Kind) : 3 ≤ width k := by
  cases k <;> decide

/-- An identifier in range fits its field. -/
theorem maxId_lt (k : Kind) : maxId k < 16 ^ width k := by
  cases k <;> decide

@[simp] theorem digitAt_nil (i : Nat) : digitAt [] i = none := rfl

@[simp] theorem digitAt_cons_zero (c : Byte) (L : List Byte) : digitAt (c :: L) 0 = hexValue c := rfl

@[simp] theorem digitAt_cons_succ (c : Byte) (L : List Byte) (i : Nat) : digitAt (c :: L) (i + 1) = digitAt L i := by
  simp [digitAt]

theorem digitAt_drop (L : List Byte) (n i : Nat) : digitAt (L.drop n) i = digitAt L (n + i) := by
  simp [digitAt]

/-- A line that is cut off has its digits up to the cut. -/
theorem digitAt_take (L : List Byte) (n i : Nat) : digitAt (L.take n) i = if i < n then digitAt L i else none := by
  rw [digitAt, List.getElem?_take]
  split <;> rfl

theorem digitAt_of_getElem? {L : List Byte} {i : Nat} {c : Byte} (h : L[i]? = some c) : digitAt L i = hexValue c := by
  simp [digitAt, h]

theorem lt_length_of_digitAt {L : List Byte} {i : Nat} (h : (digitAt L i).isSome = true) : i < L.length := by
  by_contra hlt
  simp [digitAt, List.getElem?_eq_none (Nat.not_lt.mp hlt)] at h

/-! ### The identifier field -/

/-- The identifier field of a line. -/
def idField (k : Kind) (L : List Byte) : List Byte :=
  (L.drop 1).take (width k)

theorem length_idField {k : Kind} {L : List Byte} (h : 1 + width k ≤ L.length) :
    (idField k L).length = width k := by
  simp [idField]; omega

theorem readIdentifier_eq (k : Kind) (L : List Byte) :
    readIdentifier k L = if L.length < 1 + width k then .err .malformedHex
      else (identifierFromHex k (idField k L)).bind (makeIdentifier k) := by
  rw [readIdentifier, idDigits_eq_width, idField]

/-- The values of the field's bytes are the digits at the identifier positions. -/
theorem map_hexValue_idField {k : Kind} {L : List Byte} (h : 1 + width k ≤ L.length) :
    (idField k L).map hexValue = (List.range (width k)).map fun j => digitAt L (1 + j) := by
  refine List.ext_getElem (by simp [length_idField h]) fun j hj _ => ?_
  rw [List.length_map, length_idField h] at hj
  have hlt : j + 1 < L.length := by omega
  simp [idField, digitAt, hlt, Nat.add_comm 1 j]

/-- `fromHex_W` on a field of digits (R64, R122, R123). -/
theorem identifierFromHex_of_digits {k : Kind} {cs : List Byte} (hlen : cs.length = width k)
    (hcs : ∀ c ∈ cs, (hexValue c).isSome = true) :
    identifierFromHex k cs = .ok (fieldValue (cs.map fun c => (hexValue c).getD 0)) := by
  obtain ⟨hstd, _, hext, _⟩ := identifierDigitsAreMostSignificantFirst
  cases k with
  | std =>
    obtain ⟨v, hv, hval⟩ := hstd cs hlen hcs
    rw [identifierFromHex, hv, Result.map_ok, hval]
  | ext =>
    obtain ⟨v, hv, hval⟩ := hext cs hlen hcs
    rw [identifierFromHex, hv, Result.map_ok, hval]

/-- `fromHex_W` on a field with a byte that is no digit (R128). -/
theorem identifierFromHex_of_mem_not_digit {k : Kind} {cs : List Byte} (hlen : cs.length = width k)
    (hcs : ∃ c, c ∈ cs ∧ hexValue c = none) : identifierFromHex k cs = .err .malformedHex := by
  obtain ⟨_, hstd, _, hext⟩ := identifierDigitsAreMostSignificantFirst
  cases k with
  | std => rw [identifierFromHex, hstd cs hlen hcs, Result.map_err]
  | ext => rw [identifierFromHex, hext cs hlen hcs, Result.map_err]

/-- With digits at its positions, the identifier is made from their value (R184 to R186). -/
theorem readIdentifier_of_idDigits {k : Kind} {L : List Byte} (h : IdDigits k L) :
    readIdentifier k L = makeIdentifier k (idValue k L) := by
  have hlong : 1 + width k ≤ L.length := by
    have hpos := three_le_width k
    have hlast := lt_length_of_digitAt (h (width k - 1) (by omega))
    omega
  have hmap := map_hexValue_idField hlong
  have hdigits : ∀ c ∈ idField k L, (hexValue c).isSome = true := by
    intro c hc
    have hmem : hexValue c ∈ (List.range (width k)).map fun j => digitAt L (1 + j) :=
      hmap ▸ List.mem_map_of_mem hc
    obtain ⟨j, hj, e⟩ := List.mem_map.mp hmem
    exact e ▸ h j (List.mem_range.mp hj)
  have hvalue : fieldValue ((idField k L).map fun c => (hexValue c).getD 0) = idValue k L := by
    simpa [idValue, Function.comp_def] using congrArg (fun os => fieldValue (os.map fun o => o.getD 0)) hmap
  rw [readIdentifier_eq, if_neg (Nat.not_lt.mpr hlong),
    identifierFromHex_of_digits (length_idField hlong) hdigits, hvalue, Result.bind_ok]

/-- A missing identifier digit and a bad one are reported alike (R189, R128). -/
theorem readIdentifier_of_not_idDigits {k : Kind} {L : List Byte} (h : ¬ IdDigits k L) :
    readIdentifier k L = .err .malformedHex := by
  rw [readIdentifier_eq]
  split
  · rfl
  · next hshort =>
    have hlong := Nat.not_lt.mp hshort
    obtain ⟨j, hj, hnone⟩ : ∃ j, j < width k ∧ digitAt L (1 + j) = none := by simpa [IdDigits] using h
    have hmem : none ∈ (idField k L).map hexValue := by
      rw [map_hexValue_idField hlong]
      exact List.mem_map.mpr ⟨j, List.mem_range.mpr hj, hnone⟩
    rw [identifierFromHex_of_mem_not_digit (length_idField hlong) (List.mem_map.mp hmem), Result.bind_err]

/-! ### The length digit -/

/-- A missing length digit and a bad one are reported alike (R187, R189). -/
theorem readLength_of_not_digit {k : Kind} {L : List Byte} (h : digitAt L (1 + width k) = none) :
    readLength k L = .err .malformedHex := by
  rw [readLength, idDigits_eq_width]
  cases hc : L[1 + width k]? with
  | none => rfl
  | some c =>
    have hbad : hexValue c = none := by simpa [digitAt, hc] using h
    simp [digitToValue_eq_hexValue, hbad]

/-- A length digit is checked against the limit 8 (R187). -/
theorem readLength_of_digit {k : Kind} {L : List Byte} {d : Nat} (h : digitAt L (1 + width k) = some d) :
    readLength k L = if hd : d < 9 then .ok ⟨d, hd⟩ else .err .invalidLength := by
  obtain ⟨c, hc, hval⟩ := Option.bind_eq_some_iff.mp h
  have hlt : d % 16 = d := Nat.mod_eq_of_lt (hexValue_lt hval)
  simp [readLength, idDigits_eq_width, hc, digitToValue_eq_hexValue, hval, hlt, Config.maxLen]

/-! ### The payload field -/

/-- With digits at the positions of its pairs, a field gives a byte for each pair (R188). -/
theorem readPairs_of_digits {d : Nat} {M : List Byte} (h : ∀ j, j < 2 * d → (digitAt M j).isSome = true) :
    ∃ xs, readPairs d M = .ok xs ∧ xs.length = d ∧ ∀ i, i < d →
      (xs.getD i 0).toNat = 16 * (digitAt M (2 * i)).getD 0 + (digitAt M (2 * i + 1)).getD 0 := by
  induction d generalizing M with
  | zero => exact ⟨[], rfl, rfl, by simp⟩
  | succ d ih =>
    obtain ⟨x, hx⟩ := Option.isSome_iff_exists.mp (h 0 (by omega))
    obtain ⟨y, hy⟩ := Option.isSome_iff_exists.mp (h 1 (by omega))
    match M with
    | [] => simp at hx
    | [a] => simp at hy
    | a :: b :: rest =>
      obtain ⟨v, hv, hval⟩ := (hexPairIsHighNibbleFirst a b).1 x y (by simpa using hx) (by simpa using hy)
      obtain ⟨xs, hxs, hlen, hvals⟩ := ih (M := rest) fun j hj => by simpa using h (j + 2) (by omega)
      refine ⟨v :: xs, by simp [readPairs, hv, hxs], by simp [hlen], fun i hi => ?_⟩
      cases i with
      | zero => simp [hval, hx, hy]
      | succ i => simpa [Nat.mul_succ] using hvals i (by omega)

/-- A missing payload byte and a bad one are reported alike, whichever pair it is in (R188, R189). -/
theorem readPairs_of_not_digit {d j : Nat} {M : List Byte} (hj : j < 2 * d) (h : digitAt M j = none) :
    readPairs d M = .err .malformedHex := by
  induction d generalizing M j with
  | zero => omega
  | succ d ih =>
    match M with
    | [] => rfl
    | [a] => rfl
    | a :: b :: rest =>
      obtain ⟨hgood, hbad⟩ := hexPairIsHighNibbleFirst a b
      cases ha : hexValue a with
      | none => simp [readPairs, hbad (.inl ha)]
      | some x =>
        cases hb : hexValue b with
        | none => simp [readPairs, hbad (.inr hb)]
        | some y =>
          obtain ⟨v, hv, _⟩ := hgood x y ha hb
          match j with
          | 0 => simp [ha] at h
          | 1 => simp [hb] at h
          | j + 2 => simp [readPairs, hv, ih (j := j) (M := rest) (by omega) (by simpa using h)]

/-- The container holds the bytes given and zeros beyond them (R46). -/
theorem getElem_payloadOfBytes (xs : List Byte) {i : Nat} (h : i < 8) : (payloadOfBytes xs)[i] = xs.getD i 0 := by
  interval_cases i <;> rfl

/-- With digits at its positions, the payload holds the value of each pair and zeros beyond the last (R188, R46). -/
theorem readPayload_of_payloadDigits {k : Kind} {d : Nat} {L : List Byte} (h : PayloadDigits k d L) :
    ∃ data, readPayload k d L = .ok data ∧ ∀ i (hi : i < 8),
      (i < d → data[i].toNat =
        16 * (digitAt L (2 + width k + 2 * i)).getD 0 + (digitAt L (3 + width k + 2 * i)).getD 0) ∧
      (d ≤ i → data[i] = 0) := by
  obtain ⟨xs, hxs, hlen, hvals⟩ := readPairs_of_digits (M := L.drop (2 + width k))
    fun j hj => by simpa [digitAt_drop] using h j hj
  refine ⟨payloadOfBytes xs, ?_, fun i hi => ⟨fun hlt => ?_, fun hge => ?_⟩⟩
  · rw [readPayload, idDigits_eq_width, hxs, Result.map_ok]
  · have hodd : 2 + width k + (2 * i + 1) = 3 + width k + 2 * i := by omega
    rw [getElem_payloadOfBytes, hvals i hlt, digitAt_drop, digitAt_drop, hodd]
  · rw [getElem_payloadOfBytes, List.getD_eq_default _ _ (by omega)]

theorem readPayload_of_not_payloadDigits {k : Kind} {d : Nat} {L : List Byte} (h : ¬ PayloadDigits k d L) :
    readPayload k d L = .err .malformedHex := by
  obtain ⟨j, hj, hnone⟩ : ∃ j, j < 2 * d ∧ digitAt L (2 + width k + j) = none := by simpa [PayloadDigits] using h
  rw [readPayload, idDigits_eq_width, readPairs_of_not_digit hj ((digitAt_drop ..).trans hnone), Result.map_err]

/-! ### The rules of a data line -/

/-- `decodeData` follows the rules of a data line: its fields are read in the order of R192, and the first that fails
gives the result. -/
theorem decodeData_dataLineResult (k : Kind) (L : List Byte) : DataLineResult k L (decodeData k L) := by
  obtain ⟨hmake, hrange⟩ := identifierOutOfRangeCannotBeMade k (idValue k L)
  refine ⟨fun hbad => ?_, fun hid hgt => ?_, fun hid hle hnone => ?_, fun d hid hle hd => ?_⟩
  · rw [decodeData, readIdentifier_of_not_idDigits hbad, Result.bind_err]
  · rw [decodeData, readIdentifier_of_idDigits hid, hrange hgt, Result.bind_err]
  · obtain ⟨ident, hident, _, _⟩ := hmake hle
    rw [decodeData, readIdentifier_of_idDigits hid, hident, Result.bind_ok, readLength_of_not_digit hnone,
      Result.bind_err]
  · obtain ⟨ident, hident, hkind, hvalue⟩ := hmake hle
    have hfield : decodeData k L = (readLength k L).bind fun len =>
        (readPayload k len.val L).bind fun data => .ok ⟨ident, len, data⟩ := by
      rw [decodeData, readIdentifier_of_idDigits hid, hident, Result.bind_ok]
    rw [hfield, readLength_of_digit hd]
    refine ⟨fun hlong => ?_, fun hlen hbad => ?_, fun hlen hpay => ?_⟩
    · rw [dif_neg (Nat.not_lt.mpr hlong), Result.bind_err]
    · rw [dif_pos (Nat.lt_succ_of_le hlen), Result.bind_ok, readPayload_of_not_payloadDigits hbad, Result.bind_err]
    · obtain ⟨data, hdata, hbytes⟩ := readPayload_of_payloadDigits hpay
      rw [dif_pos (Nat.lt_succ_of_le hlen), Result.bind_ok, hdata, Result.bind_ok]
      exact ⟨_, rfl, hkind, hvalue, rfl, hbytes⟩

/-- Settles O41: DEC.t is `decodeData` of the standard class. -/
theorem decStdFollowsTheLineRules : Obligations.DecStdFollowsTheLineRules := fun rest s =>
  ⟨_, exec_decStd rest s, decodeData_dataLineResult .std _⟩

/-- Settles O42: DEC.T is `decodeData` of the extended class. -/
theorem decExtFollowsTheLineRules : Obligations.DecExtFollowsTheLineRules := fun rest s =>
  ⟨_, exec_decExt rest s, decodeData_dataLineResult .ext _⟩

/-! ### What follows the fields -/

section Append

variable {k : Kind} {L : List Byte} (extra : List Byte)

/-- An identifier that is read stands within the line. -/
theorem readIdentifier_append {id : Identifier} (h : readIdentifier k L = .ok id) :
    readIdentifier k (L ++ extra) = .ok id := by
  rw [readIdentifier_eq] at h ⊢
  split at h
  · simp at h
  · next hlong =>
    have hfield : idField k (L ++ extra) = idField k L := by
      rw [idField, idField, List.drop_append_of_le_length (by omega),
        List.take_append_of_le_length (by rw [List.length_drop]; omega)]
    rw [if_neg (by rw [List.length_append]; omega), hfield, h]

/-- A length digit that is read stands within the line. -/
theorem readLength_append {len : Fin (Config.maxLen + 1)} (h : readLength k L = .ok len) :
    readLength k (L ++ extra) = .ok len := by
  have hlt : 1 + idDigits k < L.length := by
    by_contra hge
    simp [readLength, List.getElem?_eq_none (Nat.not_lt.mp hge)] at h
  rwa [readLength, List.getElem?_append_left hlt]

theorem readPairs_append {d : Nat} {M xs : List Byte} (h : readPairs d M = .ok xs) :
    readPairs d (M ++ extra) = .ok xs := by
  induction d generalizing M xs with
  | zero => exact h
  | succ d ih =>
    match M with
    | [] => simp [readPairs] at h
    | [a] => simp [readPairs] at h
    | a :: b :: rest =>
      obtain ⟨x, hx, h⟩ := Result.bind_eq_ok.mp h
      obtain ⟨ys, hys, h⟩ := Result.bind_eq_ok.mp h
      simp only [List.cons_append, readPairs, hx, ih hys, Result.bind_ok, h]

/-- A payload of at least one pair that is read stands within the line; one of no pair is empty wherever it stands. -/
theorem readPayload_append {d : Nat} {data : Payload} (h : readPayload k d L = .ok data) :
    readPayload k d (L ++ extra) = .ok data := by
  obtain ⟨xs, hxs, h⟩ := Result.bind_eq_ok.mp h
  have hdrop : (L ++ extra).drop (2 + idDigits k) =
      L.drop (2 + idDigits k) ++ extra.drop (2 + idDigits k - L.length) := List.drop_append
  rw [readPayload, hdrop, readPairs_append _ hxs]
  exact h

/-- Every field of a line that decodes to a frame stands within it, so what follows is not read (R190). -/
theorem decodeData_append {f : Frame} (h : decodeData k L = .ok f) : decodeData k (L ++ extra) = .ok f := by
  obtain ⟨id, hid, h⟩ := Result.bind_eq_ok.mp h
  obtain ⟨len, hlen, h⟩ := Result.bind_eq_ok.mp h
  obtain ⟨data, hdata, h⟩ := Result.bind_eq_ok.mp h
  rw [decodeData, readIdentifier_append extra hid, Result.bind_ok, readLength_append extra hlen, Result.bind_ok,
    readPayload_append extra hdata, Result.bind_ok]
  exact h

end Append

/-- Only a data line decodes to a frame (R182, R183). -/
theorem letter_of_decodeLine_eq_ok {L : List Byte} {f : Frame} (h : decodeLine L = .ok f) :
    ∃ k, L[0]? = some (letter k) := by
  cases L with
  | nil => simp [decodeLine] at h
  | cons b rest =>
    cases hc : commandOf b with
    | none => simp [decodeLine, hc, rejectLine] at h
    | some c =>
      obtain rfl := commandOf_eq_some.mp hc
      cases c with
      | transmitStandard => exact ⟨.std, rfl⟩
      | transmitExtended => exact ⟨.ext, rfl⟩
      | setup => simp [decodeLine, rejectLine] at h
      | openCh => simp [decodeLine, rejectLine] at h
      | closeCh => simp [decodeLine, rejectLine] at h

/-- A line presented to the Line Decoder's input shows a result exactly when `decodeLine` gives it. -/
theorem exec_decode_line_eq_iff {L : List Byte} {s : State} {r : Result Frame} :
    exec (decode (.line L)) s = .next { s with decOut := some r } ↔ decodeLine L = r := by
  rw [exec_decode_line]
  refine ⟨fun h => ?_, fun h => h ▸ rfl⟩
  simpa using congrArg State.decOut (Host.Outcome.next.inj h)

/-- Settles O47: the longer line has the same command letter and the same fields. -/
theorem trailingCharactersAreIgnored : Obligations.TrailingCharactersAreIgnored := by
  intro L extra f s h
  have hf := exec_decode_line_eq_iff.mp h
  obtain ⟨k, hk⟩ := letter_of_decodeLine_eq_ok hf
  have hk' : (L ++ extra)[0]? = some (letter k) := by
    obtain ⟨hlt, _⟩ := List.getElem?_eq_some_iff.mp hk
    rw [List.getElem?_append_left hlt, hk]
  rw [decodeLine_of_letter hk] at hf
  exact exec_decode_line_eq_iff.mpr ((decodeLine_of_letter hk').trans (decodeData_append extra hf))

/-! ### The digits of an encoded frame's line -/

/-- The emitted digit of a value has that value (R83). -/
@[simp] theorem hexValue_hexUpper {v : Nat} (h : v < 16) : hexValue (hexUpper v) = some v := by
  interval_cases v <;> decide

/-- A field of the lowest `w` hex digits of a number has the number's value below `16 ^ w` (R64). -/
theorem fieldValue_digits (n w : Nat) :
    fieldValue ((List.range w).map fun j => n / 16 ^ (w - 1 - j) % 16) = n % 16 ^ w := by
  induction w with
  | zero => simp [fieldValue, Nat.mod_one]
  | succ w ih =>
    rw [List.range_succ_eq_map, List.map_cons, List.map_map, fieldValue, Nat.mod_pow_succ, ← ih]
    simp [Function.comp_def, Nat.sub_sub, Nat.add_comm 1]
    ring

section FrameLineDigits

variable {k : Kind} {id len n : Nat} {data : Payload} {line : List Byte}

/-- A part of a frame's line, from its start, that holds the identifier field has its digits. -/
theorem digitAt_take_id (h : IsFrameLine k id len data line) (hn : 1 + width k ≤ n) {j : Nat} (hj : j < width k) :
    digitAt (line.take n) (1 + j) = some (id / 16 ^ (width k - 1 - j) % 16) := by
  obtain ⟨_, _, hid, _⟩ := h
  rw [digitAt_take, if_pos (by omega), digitAt_of_getElem? (hid j hj), hexValue_hexUpper (Nat.mod_lt _ (by decide))]

theorem idDigits_take (h : IsFrameLine k id len data line) (hn : 1 + width k ≤ n) : IdDigits k (line.take n) := by
  intro j hj
  rw [digitAt_take_id h hn hj, Option.isSome_some]

theorem idValue_take (h : IsFrameLine k id len data line) (hid : id ≤ maxId k) (hn : 1 + width k ≤ n) :
    idValue k (line.take n) = id := by
  have hdigits : ∀ j ∈ List.range (width k),
      (digitAt (line.take n) (1 + j)).getD 0 = id / 16 ^ (width k - 1 - j) % 16 := by
    intro j hj
    rw [digitAt_take_id h hn (List.mem_range.mp hj), Option.getD_some]
  rw [idValue, List.map_congr_left hdigits, fieldValue_digits,
    Nat.mod_eq_of_lt (hid.trans_lt (maxId_lt k))]

theorem digitAt_take_length (h : IsFrameLine k id len data line) (hlen : len ≤ 8) (hn : 2 + width k ≤ n) :
    digitAt (line.take n) (1 + width k) = some len := by
  obtain ⟨_, _, _, hlength, _⟩ := h
  rw [digitAt_take, if_pos (by omega), digitAt_of_getElem? hlength, hexValue_hexUpper (by omega)]

/-- A part that holds the payload field has the digits of each byte. -/
theorem digitAt_take_payload (h : IsFrameLine k id len data line) (hn : 2 + width k + 2 * len ≤ n) {i : Nat}
    (hi : i < 8) (hlt : i < len) :
    digitAt (line.take n) (2 + width k + 2 * i) = some (data[i].toNat / 16) ∧
    digitAt (line.take n) (3 + width k + 2 * i) = some (data[i].toNat % 16) := by
  obtain ⟨_, _, _, _, hpairs, _⟩ := h
  obtain ⟨hhigh, hlow⟩ := hpairs i hi hlt
  rw [digitAt_take, digitAt_take, if_pos (by omega), if_pos (by omega), digitAt_of_getElem? hhigh,
    digitAt_of_getElem? hlow, hexValue_hexUpper (by omega), hexValue_hexUpper (by omega)]
  exact ⟨rfl, rfl⟩

theorem payloadDigits_take (h : IsFrameLine k id len data line) (hlen : len ≤ 8)
    (hn : 2 + width k + 2 * len ≤ n) : PayloadDigits k len (line.take n) := by
  intro j hj
  obtain ⟨hhigh, hlow⟩ := digitAt_take_payload h hn (i := j / 2) (by omega) (by omega)
  rcases Nat.mod_two_eq_zero_or_one j with heven | hodd
  · have hpos : 2 + width k + j = 2 + width k + 2 * (j / 2) := by omega
    rw [hpos, hhigh, Option.isSome_some]
  · have hpos : 2 + width k + j = 3 + width k + 2 * (j / 2) := by omega
    rw [hpos, hlow, Option.isSome_some]

/-- A part of at least one byte is a data line of the frame's class. -/
theorem decodeLine_take (h : IsFrameLine k id len data line) (hn : 1 ≤ n) :
    decodeLine (line.take n) = decodeData k (line.take n) := by
  obtain ⟨_, hletter, _⟩ := h
  exact decodeLine_of_letter (by rw [List.getElem?_take_of_lt hn, hletter])

/-- A part that ends before the last field does is malformed (R189). -/
theorem decodeData_take_of_truncated (h : IsFrameLine k id len data line) (hid : id ≤ maxId k) (hlen : len ≤ 8)
    (hn : 1 ≤ n) (hcut : n < 2 + width k + 2 * len) : decodeData k (line.take n) = .err .malformedHex := by
  obtain ⟨hbadId, _, hnoLength, hfields⟩ := decodeData_dataLineResult k (line.take n)
  have hend : digitAt (line.take n) n = none := by rw [digitAt_take, if_neg (Nat.lt_irrefl n)]
  by_cases hidCut : n < 1 + width k
  · refine hbadId fun hall => ?_
    have hsome := hall (n - 1) (by omega)
    simp [Nat.add_sub_cancel' hn, hend] at hsome
  · have hidDigits := idDigits_take h (Nat.not_lt.mp hidCut)
    have hidLe : idValue k (line.take n) ≤ maxId k := by rwa [idValue_take h hid (Nat.not_lt.mp hidCut)]
    by_cases hlenCut : n = 1 + width k
    · exact hnoLength hidDigits hidLe (hlenCut ▸ hend)
    · obtain ⟨_, hbadPayload, _⟩ := hfields len hidDigits hidLe (digitAt_take_length h hlen (by omega))
      refine hbadPayload hlen fun hall => ?_
      have hsome := hall (n - (2 + width k)) (by omega)
      rw [Nat.add_sub_cancel' (by omega), hend] at hsome
      simp at hsome

/-- The line without its CR spells the frame that was encoded (R194). -/
theorem decodeLine_dropLast (h : IsFrameLine k id len data line) (hid : id ≤ maxId k) (hlen : len ≤ 8) :
    ∃ f, decodeLine line.dropLast = .ok f ∧ Carries f k id len data := by
  have hcut : 2 + width k + 2 * len ≤ line.length - 1 := by rw [h.1]; omega
  rw [List.dropLast_eq_take, decodeLine_take h (by omega)]
  have hvalue := idValue_take h hid (n := line.length - 1) (by omega)
  obtain ⟨_, _, _, hfields⟩ := decodeData_dataLineResult k (line.take (line.length - 1))
  obtain ⟨_, _, hframe⟩ := hfields len (idDigits_take h (by omega)) (by omega)
    (digitAt_take_length h hlen (by omega))
  obtain ⟨f, hf, hkind, hfid, hflen, hbytes⟩ := hframe hlen (payloadDigits_take h hlen hcut)
  refine ⟨f, hf, hkind, hfid.trans hvalue, hflen, fun i hi hlt => BitVec.eq_of_toNat_eq ?_⟩
  obtain ⟨hhigh, hlow⟩ := digitAt_take_payload h hcut hi hlt
  rw [(hbytes i hi).1 hlt, hhigh, hlow, Option.getD_some, Option.getD_some, Nat.div_add_mod]

end FrameLineDigits

/-- A request that is answered with a line is in range, and the line is that of its frame (R87, R88, R141, R144). -/
theorem isFrameLine_of_exec_encodeInstr {k : Kind} {id : BitVec 32} {len : Nat} {data : Payload}
    {line : List Byte} {s : State}
    (h : exec (encodeInstr k id len data) s = .next { s with txOut := [.ok line] }) :
    id.toNat ≤ maxId k ∧ len ≤ 8 ∧ IsFrameLine k id.toNat len data line := by
  have hresponse : ∀ r, exec (encodeInstr k id len data) s = .next { s with txOut := [r] } → r = .ok line :=
    fun r hr => by simpa using congrArg State.txOut (Host.Outcome.next.inj (hr.symm.trans h))
  by_cases hid : maxId k < id.toNat
  · exact absurd (hresponse _ (encodeRejectsIdentifierFirst k id len data s hid)) (by simp)
  · rw [Nat.not_lt] at hid
    by_cases hlen : 8 < len
    · exact absurd (hresponse _ (encodeRejectsLongPayload k id len data s hid hlen)) (by simp)
    · rw [Nat.not_lt] at hlen
      have hline : ∃ l, exec (encodeInstr k id len data) s = .next { s with txOut := [.ok l] } ∧
          IsFrameLine k id.toNat len data l := by
        cases k with
        | std => exact encStdGivesTheStandardLine id len data s hid hlen
        | ext => exact encExtGivesTheExtendedLine id len data s hid hlen
      obtain ⟨l, hexec, hl⟩ := hline
      obtain rfl := Result.ok.inj (hresponse _ hexec)
      exact ⟨hid, hlen, hl⟩

/-- Settles O49: the line's digits are those of the request, and the rules of a data line give the frame they spell. -/
theorem decodedLineIsTheEncodedFrame : Obligations.DecodedLineIsTheEncodedFrame := by
  intro k id len data line s h
  obtain ⟨hid, hlen, hline⟩ := isFrameLine_of_exec_encodeInstr h
  obtain ⟨f, hf, hcarries⟩ := decodeLine_dropLast hline hid hlen
  exact ⟨f, exec_decode_line_eq_iff.mpr hf, hcarries⟩

/-- Settles O48: the first field that the cut leaves incomplete is reported. -/
theorem truncatedFrameLineIsMalformed : Obligations.TruncatedFrameLineIsMalformed := by
  intro k id len data line n s h hn hcut
  obtain ⟨hid, hlen, hline⟩ := isFrameLine_of_exec_encodeInstr h
  have hn' : n < 2 + width k + 2 * len := by rw [hline.1] at hcut; omega
  exact exec_decode_line_eq_iff.mpr
    ((decodeLine_take hline hn).trans (decodeData_take_of_truncated hline hid hlen hn hn'))

/-! ### The buffered line -/

/-- The event of a decoded line is the one that R162 names. -/
theorem eventOfDecode_eq_lineEvent (r : Result Frame) : eventOfDecode r = lineEvent r := by
  cases r <;> rfl

/-- Settles O45: RX.CR decodes the buffered line with the function that the DEC instructions run. -/
theorem decodeLineDispatchesOnTheCommandByte : Obligations.DecodeLineDispatchesOnTheCommandByte := by
  refine ⟨exec_decode_line, fun L s hd hmin hcap hL => ⟨decodeLine L, exec_decode_line L s, ?_⟩⟩
  rw [exec_rxCr, rxCr_of_buffered hd hmin hcap hL, eventOfDecode_eq_lineEvent]
  rfl

/-- The rule of RX.CR on a line that can be read (R162). -/
theorem rxCr_of_line {P : Params} {s : State} {L : List Byte} (hd : s.desynced = false)
    (hmin : P.minValid ≤ s.filled) (hL : s.line P = .ok L) :
    rxCr P s = .next (s.endLine (eventOfDecode (decodeLine L))) := by
  simp [rxCr, hd, Nat.not_lt.mpr hmin, hL]

/-- Settles O36: the two states have the same length and read the same line. -/
theorem lineResultDependsOnTheLineAlone : Obligations.LineResultDependsOnTheLineAlone := by
  intro s s' hd hd' hfilled hcells t h
  have hline : s.line params = s'.line params := by
    rw [State.line, State.line, ← hfilled]
    exact Memory.readCells_congr fun j hj => hcells _ (by omega)
  rw [exec_rxCr] at h ⊢
  rcases rxCr_cases params s with ⟨hover, _⟩ | ⟨_, hshort, e⟩ | ⟨_, hmin, L, hL, e⟩ | ⟨_, _, _, _, e⟩
  · exact absurd (hd.symm.trans hover) (by simp)
  · cases e.symm.trans h
    exact ⟨_, rxCr_of_short hd' (hfilled ▸ hshort), rfl⟩
  · cases e.symm.trans h
    exact ⟨_, rxCr_of_line hd' (hfilled ▸ hmin) (hline ▸ hL), rfl⟩
  · exact absurd (e.symm.trans h) (by simp)

/-! ### A line on the wire -/

/-- An appended byte is the last of the buffered line (R164). -/
theorem buffered_append {s : State} {L : List Byte} (h : Buffered s L) (b : Byte) :
    Buffered (s.append b) (L ++ [b]) := by
  obtain ⟨hlen, hread⟩ := h
  refine ⟨by simp [hlen], fun i hi => ?_⟩
  rw [State.append_buf]
  rcases Nat.lt_succ_iff_lt_or_eq.mp (by simpa using hi) with hlt | rfl
  · rw [Memory.read_write_other (by omega), hread i hlt, List.getElem_append_left hlt]
  · simp [hlen]

/-- Between lines nothing is buffered. -/
theorem buffered_nil {s : State} (h : BetweenLines s) : Buffered s [] :=
  ⟨h.1.symm, fun _ hi => absurd hi (Nat.not_lt_zero _)⟩

/-- Line bytes that have room are buffered behind the line, without an event (R164). -/
theorem rxFeed_of_room {bs : List Byte} {s : State} {L : List Byte} (hL : Buffered s L) (hd : s.desynced = false)
    (hbs : LineBytes bs) (hroom : s.filled + bs.length ≤ params.capacity) :
    ∃ t, rxFeed bs s = .next (t, List.replicate bs.length .none) ∧ Buffered t (L ++ bs) ∧ t.desynced = false := by
  induction bs generalizing s L with
  | nil => exact ⟨s, rfl, by simpa using hL, hd⟩
  | cons b bs ih =>
    obtain ⟨hb, hrest⟩ := List.forall_mem_cons.mp hbs
    rw [List.length_cons] at hroom
    have hstep : rxStep b s = .next ((s.append b).emitRx .none, .none) :=
      rxStep_of_rxOther_next hb (rxOther_of_room hd (by omega))
    obtain ⟨t, hfeed, hline, ht⟩ := ih (s := (s.append b).emitRx .none) (L := L ++ [b]) (buffered_append hL b) hd
      hrest (by simp; omega)
    exact ⟨t, rxFeed_cons_next hstep hfeed, by simpa using hline, ht⟩

/-- A line that fits, fed between lines and ended by CR, gives the event of its decoding at the CR (R162). -/
theorem rxFeed_line {bs : List Byte} {s : State} (hs : BetweenLines s) (hbs : LineBytes bs)
    (hmin : params.minValid ≤ bs.length) (hcap : bs.length ≤ params.capacity) :
    ∃ t, rxFeed (bs ++ [Config.cr]) s =
      .next (t, List.replicate bs.length .none ++ [eventOfDecode (decodeLine bs)]) ∧ BetweenLines t := by
  obtain ⟨t, hfeed, hline, hd⟩ := rxFeed_of_room (buffered_nil hs) hs.2 hbs (by rw [hs.1]; omega)
  rw [List.nil_append] at hline
  have hcr : exec (decode (.rx Config.cr)) t = .next (t.endLine (eventOfDecode (decodeLine bs))) :=
    (exec_rxCr t).trans (rxCr_of_buffered hd (hline.1 ▸ hmin) (hline.1 ▸ hcap) hline)
  exact ⟨_, rxFeed_append hfeed (rxFeed_cons_next (rxStep_of_next hcr) rfl), rfl, rfl⟩

/-- No byte that the encoder emits before the CR is a delimiter (R96). -/
theorem lineByte_of_outputByte {b : Byte} (h : OutputByte b) : LineByte b := by
  rcases h with hdigit | rfl | rfl | rfl | rfl | rfl
  · have hdigits : ∀ c ∈ upperDigits, LineByte c := by decide
    exact hdigits b hdigit
  · decide
  · decide
  · decide
  · decide
  · decide

/-- Settles O50: the line's content fits the buffer and holds no delimiter, so the CR decodes it. -/
theorem encodedFrameComesBackOnTheWire : Obligations.EncodedFrameComesBackOnTheWire := by
  intro k id len data line s h hs
  obtain ⟨hid, hlen, hline⟩ := isFrameLine_of_exec_encodeInstr h
  obtain ⟨f, hf, hcarries⟩ := decodeLine_dropLast hline hid hlen
  obtain ⟨_, hmax, hlast, halphabet⟩ : EmittedForm line :=
    emittedLinesUseTheOutputAlphabet _ s _ line (by cases k <;> rfl) h (List.mem_singleton_self _)
  have hcontent : line = line.dropLast ++ [Config.cr] := (List.dropLast_append_getLast? _ hlast).symm
  have hbytes : LineBytes line.dropLast := fun b hb => lineByte_of_outputByte (halphabet b hb)
  have hmin : 5 ≤ line.dropLast.length := by
    have hwidth := three_le_width k
    rw [List.length_dropLast, hline.1]
    omega
  have hcap : line.dropLast.length ≤ 28 := by
    rw [List.length_dropLast]
    omega
  obtain ⟨t, hfeed, ht⟩ := rxFeed_line hs hbytes hmin hcap
  rw [← hcontent, hf, List.length_dropLast] at hfeed
  exact ⟨t, f, hfeed, hcarries, ht⟩

end Sys2Proof.Machine

/-! PROOFS. The host operations: what the transport takes of a line, the lines that a transmit operation writes, the
bytes that a read takes, and the host whose presentations are not refused (44_channel_interface.md). -/

namespace Sys2Proof.Machine

open Sys2Proof.Spec

/-! ### What the transport takes of a line -/

/-- What the write loop can do (R214): it writes all the bytes, or a write fails with a proper part of them written. -/
theorem sendBytes_cases (ws : List TransportWrite) (bs : List Byte) :
    ∃ ws', ws' <:+ ws ∧
      (sendBytes ws bs = (bs, ws', none) ∨
       ∃ e sent, .ioError e ∈ ws ∧ sent <+: bs ∧ sent ≠ bs ∧ sendBytes ws bs = (sent, ws', some e)) := by
  induction ws, bs using sendBytes.induct with
  | case1 ws => exact ⟨ws, List.suffix_rfl, .inl (by simp [sendBytes])⟩
  | case2 b bs => exact ⟨[], List.suffix_rfl, .inl rfl⟩
  | case3 e ws b bs =>
    exact ⟨ws, List.suffix_cons .., .inr ⟨e, [], List.mem_cons_self, List.nil_prefix, by simp, rfl⟩⟩
  | case4 k ws b bs _ _ _ _ ih =>
    have hsplit : (b :: bs).take k ++ (b :: bs).drop k = b :: bs := List.take_append_drop k (b :: bs)
    obtain ⟨ws', hws, hall | ⟨e, sent, he, hpre, hne, hpart⟩⟩ := ih
    · exact ⟨ws', hws.trans (List.suffix_cons ..), .inl (by simp only [sendBytes, hall, hsplit])⟩
    · refine ⟨ws', hws.trans (List.suffix_cons ..), .inr ⟨e, (b :: bs).take k ++ sent, List.mem_cons_of_mem _ he,
        ?_, ?_, by rw [sendBytes, hpart]⟩⟩
      · simpa only [hsplit] using (List.prefix_append_right_inj ((b :: bs).take k)).mpr hpre
      · exact fun h => hne (List.append_cancel_left (h.trans hsplit.symm))

/-- A transport that has taken these bytes, with these answers to its coming writes. -/
def Transport.took (t : Transport) (sent : List Byte) (ws : List TransportWrite) : Transport :=
  { t with writes := ws, sent := t.sent ++ sent }

@[simp] theorem Transport.took_sent (t : Transport) (sent : List Byte) (ws : List TransportWrite) :
    (t.took sent ws).sent = t.sent ++ sent := rfl

@[simp] theorem Transport.took_took (t : Transport) (sent sent' : List Byte) (ws ws' : List TransportWrite) :
    (t.took sent ws).took sent' ws' = t.took (sent ++ sent') ws' := by simp [took]

/-- What offering a line can do (R214): all of it is taken, or a write fails with a proper part of it taken. -/
theorem Transport.send_cases (t : Transport) (line : List Byte) :
    ∃ ws, ws <:+ t.writes ∧
      (t.send line = (t.took line ws, none) ∨
       ∃ e sent, .ioError e ∈ t.writes ∧ sent <+: line ∧ sent ≠ line ∧ t.send line = (t.took sent ws, some e)) := by
  obtain ⟨ws, hws, hall | ⟨e, sent, he, hpre, hne, hpart⟩⟩ := sendBytes_cases t.writes line
  · exact ⟨ws, hws, .inl (by simp [send, hall, took])⟩
  · exact ⟨ws, hws, .inr ⟨e, sent, he, hpre, hne, by simp [send, hpart, took]⟩⟩

/-- A transport whose writes do not fail takes a whole line, and its coming writes do not fail either. -/
theorem Transport.send_of_noWriteError {t : Transport} (h : NoWriteError t) (line : List Byte) :
    ∃ ws, t.send line = (t.took line ws, none) ∧ NoWriteError (t.took line ws) := by
  obtain ⟨ws, hws, hall | ⟨e, _, he, _⟩⟩ := t.send_cases line
  · exact ⟨ws, hall, fun w hw => h w (hws.subset hw)⟩
  · obtain ⟨k, hk⟩ := h _ he
    exact absurd hk (by simp)

/-! ### The lines that a transmit operation writes -/

/-- A transport whose writes do not fail takes the lines one after the other, each whole (R216 duty 4). -/
theorem Channel.sendResponses_of_noWriteError {c : Channel} (lines : List (List Byte))
    (h : NoWriteError c.transport) :
    ∃ ws, sendResponses (lines.map .ok) c =
      ({ c with transport := c.transport.took lines.flatten ws }, .ok lines.flatten.length) := by
  induction lines generalizing c with
  | nil => exact ⟨c.transport.writes, by simp [sendResponses, Transport.took]⟩
  | cons line lines ih =>
    obtain ⟨ws, hsend, hok⟩ := Transport.send_of_noWriteError h line
    obtain ⟨ws', hrest⟩ := ih (c := { c with transport := c.transport.took line ws }) hok
    exact ⟨ws', by simp [sendResponses, hsend, hrest]⟩

/-- A transmit operation writes what its instruction puts on the transmit port. -/
theorem Channel.transmit_eq {i : Instr} {c : Channel} {rs : List Response}
    (h : exec i c.block = .next (c.block.emitTx rs)) :
    c.transmit i = .next (sendResponses rs { c with block := c.block.emitTx rs }) := by
  simp [transmit, h]

/-- Over a transport whose writes do not fail, an instruction that puts lines on the transmit port has them all
written. -/
theorem Channel.transmit_of_noWriteError {i : Instr} {c : Channel} {lines : List (List Byte)}
    (he : exec i c.block = .next (c.block.emitTx (lines.map .ok))) (h : NoWriteError c.transport) :
    ∃ ws, c.transmit i =
      .next (⟨c.block.emitTx (lines.map .ok), c.transport.took lines.flatten ws⟩, .ok lines.flatten.length) := by
  obtain ⟨ws, hsend⟩ :=
    sendResponses_of_noWriteError (c := { c with block := c.block.emitTx (lines.map .ok) }) lines h
  exact ⟨ws, by rw [transmit_eq he, hsend]⟩

/-- Settles O57: OPEN_CHANNEL puts the Setup and the Open line on the transmit port, ENC.C the Close line. -/
theorem openAndCloseWriteTheirLines : Obligations.OpenAndCloseWriteTheirLines := by
  refine ⟨fun r c h => ?_, fun c h => ?_⟩
  · have hexec : exec (.openChannel r) c.block =
        .next (c.block.emitTx ([setupLine r, [0x4F, 0x0D]].map .ok)) := by
      rw [exec_openChannel, encodeSetup_bitRateCode]
      rfl
    obtain ⟨ws, hopen⟩ := Channel.transmit_of_noWriteError hexec h
    exact ⟨_, hopen, rfl, by simp, rfl⟩
  · have hexec : exec .encClose c.block = .next (c.block.emitTx ([[0x43, 0x0D]].map .ok)) := rfl
    obtain ⟨ws, hclose⟩ := Channel.transmit_of_noWriteError hexec h
    exact ⟨_, hclose, rfl, by simp, rfl⟩

/-! ### Writing a frame -/

/-- An identifier is in the range of its class (R45). -/
theorem identifierValue_le_maxId (id : Identifier) : identifierValue id ≤ maxId (identifierKind id) := by
  cases id with
  | standard v => exact Nat.le_of_lt_succ v.isLt
  | extended v => exact Nat.le_of_lt_succ v.isLt

/-- The identifier port carries an identifier's value whole. -/
theorem toNat_ofNat_identifierValue (id : Identifier) :
    (BitVec.ofNat 32 (identifierValue id)).toNat = identifierValue id := by
  have hmax : maxId (identifierKind id) < 2 ^ 32 := by cases identifierKind id <;> decide
  exact Nat.mod_eq_of_lt ((identifierValue_le_maxId id).trans_lt hmax)

/-- The request of `write` is that of the identifier's class. -/
theorem writeRequest_eq (id : Identifier) (payload : List Byte) :
    writeRequest id payload = encodeInstr (identifierKind id) (BitVec.ofNat 32 (identifierValue id)) payload.length
      (payloadOfBytes payload) := by
  cases id <;> rfl

/-- The request of `write` for a payload of at most 8 bytes is answered with the frame's line (R87, R88). -/
theorem exec_writeRequest (id : Identifier) {payload : List Byte} (h : payload.length ≤ 8) (s : State) :
    ∃ line, IsFrameLine (identifierKind id) (identifierValue id) payload.length (payloadOfBytes payload) line ∧
      exec (writeRequest id payload) s = .next (s.emitTx [.ok line]) := by
  have hid := identifierValue_le_maxId id
  rw [← toNat_ofNat_identifierValue] at hid ⊢
  rw [writeRequest_eq]
  cases hk : identifierKind id with
  | std =>
    obtain ⟨line, hexec, hline⟩ := encStdGivesTheStandardLine _ _ (payloadOfBytes payload) s (hk ▸ hid) h
    exact ⟨line, hline, hexec⟩
  | ext =>
    obtain ⟨line, hexec, hline⟩ := encExtGivesTheExtendedLine _ _ (payloadOfBytes payload) s (hk ▸ hid) h
    exact ⟨line, hline, hexec⟩

/-- The request of `write` for a longer payload is rejected (R144). -/
theorem exec_writeRequest_of_long (id : Identifier) {payload : List Byte} (h : 8 < payload.length) (s : State) :
    exec (writeRequest id payload) s = .next (s.emitTx [.err .invalidLength]) := by
  have hid := identifierValue_le_maxId id
  rw [← toNat_ofNat_identifierValue] at hid
  rw [writeRequest_eq]
  exact encodeRejectsLongPayload _ _ _ _ s hid h

/-- Settles O58: the line of the request is written whole, and a rejected request has none. -/
theorem writeSendsTheWholeLine : Obligations.WriteSendsTheWholeLine := by
  refine fun id payload c => ⟨fun hlen h => ?_, fun hlen => ?_⟩
  · obtain ⟨line, hline, hexec⟩ := exec_writeRequest id hlen c.block
    obtain ⟨ws, hwrite⟩ := Channel.transmit_of_noWriteError (lines := [line]) hexec h
    rw [List.flatten_singleton] at hwrite
    exact ⟨line, _, hline, hwrite, rfl, rfl⟩
  · exact Channel.transmit_eq (exec_writeRequest_of_long id hlen c.block)

/-- Settles O59: the request's line is offered to the transport, which takes all of it or fails. -/
theorem failedWriteLeavesAPrefix : Obligations.FailedWriteLeavesAPrefix := by
  intro id payload c hlen
  obtain ⟨line, hline, hexec⟩ := exec_writeRequest id hlen c.block
  have hwrite : c.write id payload =
      .next (Channel.sendResponses [.ok line] { c with block := c.block.emitTx [.ok line] }) :=
    Channel.transmit_eq hexec
  obtain ⟨ws, _, hall | ⟨e, sent, he, hpre, hne, hpart⟩⟩ := c.transport.send_cases line
  · simp only [Channel.sendResponses, hall] at hwrite
    exact ⟨line, _, _, line, hline, hwrite, rfl, .inl ⟨rfl, rfl⟩⟩
  · simp only [Channel.sendResponses, hpart] at hwrite
    exact ⟨line, _, _, sent, hline, hwrite, rfl, .inr ⟨e, rfl, he, hpre, hne⟩⟩

/-! ### Reading a line -/

/-- While the bytes give only the event `None`, a read goes on to the answers behind them (R215). -/
theorem readLoop_append_of_rxFeed {bs : List Byte} {s t : State} {evs : List Event}
    (h : rxFeed bs s = .next (t, evs)) (hnone : ∀ e, e ∈ evs → e = .none) (script : List TransportRead) :
    readLoop (bs.map .byte ++ script) s = readLoop script t := by
  induction bs generalizing s evs with
  | nil =>
    cases h
    rfl
  | cons b bs ih =>
    obtain ⟨u, ev, evs, hstep, hfeed, rfl⟩ := rxFeed_cons_cases h
    obtain ⟨rfl, hrest⟩ := List.forall_mem_cons.mp hnone
    simp [readLoop, hstep, ih hfeed hrest]

/-- Behind bytes that give only the event `None`, the other answers decide what a read returns and leaves. -/
theorem Channel.read_of_rxFeed {c : Channel} {bs : List Byte} {t u : State} {evs : List Event}
    {script rest : List TransportRead} {r : HostResult Frame} (hfeed : rxFeed bs c.block = .next (t, evs))
    (hnone : ∀ e, e ∈ evs → e = .none) (hreads : c.transport.reads = bs.map .byte ++ script)
    (hloop : readLoop script t = .next (u, rest, r)) :
    c.read = .next (⟨u, { c.transport with reads := rest }⟩, r) := by
  simp [read, hreads, readLoop_append_of_rxFeed hfeed hnone, hloop]

/-- Settles O60: each clause names the answers behind the bytes, and what the read loop does at the first of them. -/
theorem readReturnsAtTheEndOfALine : Obligations.ReadReturnsAtTheEndOfALine := by
  intro c bs t evs rest hfeed hnone
  refine ⟨fun hc => ?_, fun hc => ?_, fun e hc => ?_, fun d u ev hstep hc => ⟨?_, ?_, ?_⟩⟩
  · exact Channel.read_of_rxFeed (script := []) hfeed hnone (by simpa using hc) rfl
  · exact Channel.read_of_rxFeed hfeed hnone hc rfl
  · exact Channel.read_of_rxFeed hfeed hnone hc rfl
  · rintro f rfl
    exact Channel.read_of_rxFeed hfeed hnone hc (by simp [readLoop, hstep])
  · rintro code rfl
    exact Channel.read_of_rxFeed hfeed hnone hc (by simp [readLoop, hstep])
  · rintro reason rfl
    exact Channel.read_of_rxFeed hfeed hnone hc (by simp [readLoop, hstep])

/-! ### The host of the instance -/

/-- RX.CR is never refused. -/
theorem rxCr_ne_refused (P : Params) (s : State) (r : Refusal) : rxCr P s ≠ .refused r := by
  rcases rxCr_cases P s with ⟨_, e⟩ | ⟨_, _, e⟩ | ⟨_, _, L, _, e⟩ | ⟨_, _, f, _, e⟩ <;> simp [e]

/-- RX.BEL is never refused, under either policy. -/
theorem rxBel_ne_refused (P : Params) (s : State) (r : Refusal) : rxBel P s ≠ .refused r := by
  cases hp : P.belPolicy with
  | abort => simp [rxBel_of_abort hp]
  | asCr => simpa only [rxBel_of_asCr hp] using rxCr_ne_refused P s r

/-- RX.other is never refused. -/
theorem rxOther_ne_refused (P : Params) (b : Byte) (s : State) (r : Refusal) : rxOther P b s ≠ .refused r := by
  rcases rxOther_cases P b s with ⟨_, e⟩ | ⟨_, _, e⟩ | ⟨_, _, e⟩ | ⟨_, _, e⟩ <;> simp [e]

/-- No instruction of the receive path is refused (R160). -/
theorem exec_receives_ne_refused {i : Instr} (hi : receives i = true) (s : State) (r : Refusal) :
    exec i s ≠ .refused r := by
  cases i with
  | rxCr => exact rxCr_ne_refused params s r
  | rxBel => exact rxBel_ne_refused params s r
  | rxOther b => exact rxOther_ne_refused params b s r
  | _ => simp [receives] at hi

/-- The only instruction that is refused is a reserved op code (R150). -/
theorem exec_eq_refused {i : Instr} {s : State} {r : Refusal} (h : exec i s = .refused r) :
    ∃ op, i = .encReserved op ∧ r = .reservedTransmitOp op := by
  rcases instr_path i with ht | hr | hl | ⟨op, rfl⟩
  · obtain ⟨rs, e⟩ := exec_transmits ht
    simp [e] at h
  · exact absurd h (exec_receives_ne_refused hr s r)
  · obtain ⟨res, e⟩ := exec_decodesLine hl
    simp [e] at h
  · exact ⟨op, rfl, by simpa using h.symm⟩

/-- Settles O10: another agent's presentation is not taken, and what the host presents is run, which is refused for a
reserved op code only. -/
theorem secondHostIsRefusedOnEveryPort : Obligations.SecondHostIsRefusedOnEveryPort := by
  refine fun s a o w rest hp howner => ⟨fun hne => ?_, ?_⟩
  · have hclaim : (s.withPending rest).claim a = none := State.claim_eq_none.mpr ⟨o, howner, hne⟩
    simp [step, hp, hclaim]
  · rintro rfl h
    rw [stepRunsTheDecodedInstruction s o w rest hp (.inr howner)] at h
    obtain ⟨op, _, hop⟩ := exec_eq_refused h
    exact absurd hop (by simp)

end Sys2Proof.Machine

/-! PROOFS. Faults, refusals and recovery: what a state of the invariant rules out, and what a delimiter leaves of the
line before it (60_exceptions.md). -/

namespace Sys2Proof.Machine

open Sys2Proof.Spec

/-! ### No fault, and the inputs that are refused -/

/-- An instruction of the receive path faults only outside the invariant (R33, R43). -/
theorem State.Inv.exists_exec_receives_next {i : Instr} {s : State} (h : s.Inv params) (hi : receives i = true) :
    ∃ t, Machine.exec i s = .next t := by
  cases i with
  | rxCr => exact h.exists_rxCr_next
  | rxBel => exact h.exists_rxBel_next
  | rxOther b => exact exists_rxOther_next b h.bounded
  | _ => simp [receives] at hi

/-- In a state of the invariant no instruction faults (R230). -/
theorem State.Inv.exec_ne_fault {s : State} (h : s.Inv params) (i : Instr) (f : Fault) :
    Machine.exec i s ≠ .fault f := by
  rcases instr_path i with ht | hr | hl | ⟨op, rfl⟩
  · obtain ⟨rs, e⟩ := exec_transmits ht
    simp [e]
  · obtain ⟨t, e⟩ := h.exists_exec_receives_next hr
    simp [e]
  · obtain ⟨r, e⟩ := exec_decodesLine hl
    simp [e]
  · simp

/-- Only a transmit request with one of the codes 5, 6 and 7 decodes to ENC.reserved (R99). -/
theorem decode_eq_encReserved {w : PortWord} {op : BitVec 3} (h : decode w = .encReserved op) :
    5 ≤ op.toNat ∧ ∃ q, w = .tx q ∧ q.op = op := by
  have hcode : 5 ≤ op.toNat := by simpa [h, Instr.wellFormed] using wellFormed_decode w
  have hport := encode_decode w
  rw [h] at hport
  cases w with
  | tx q =>
    rcases decodeTx_cases q with ⟨_, e⟩ | ⟨_, e⟩ | ⟨_, e⟩ | ⟨_, e⟩ | ⟨_, e⟩ | ⟨_, e⟩ <;> cases e.symm.trans h
    exact ⟨hcode, q, rfl, rfl⟩
  | rx b => simp [encode, canonicalWord] at hport
  | line L => simp [encode, canonicalWord] at hport
  | openChannel r => simp [encode, canonicalWord] at hport

/-- What is behind a refused step, in any state: a reserved op code (R150), or a second host (R279). -/
theorem step_eq_refused {s : State} {r : Refusal} (h : step s = .refused r) :
    (∃ a q rest, s.pending = .port a (.tx q) :: rest ∧ 5 ≤ q.op.toNat ∧ r = .reservedTransmitOp q.op) ∨
    (∃ a w rest o, s.pending = .port a w :: rest ∧ s.owner = some o ∧ o ≠ a ∧ r = .secondHost) := by
  rcases step_cases s with ⟨_, e⟩ | ⟨rest, _, e⟩ | ⟨a, w, rest, hp, hclaim, e⟩ | ⟨a, w, rest, t, hp, _, e⟩ <;>
    rw [e] at h
  · simp at h
  · simp at h
  · obtain ⟨o, howner, hne⟩ := State.claim_eq_none.mp hclaim
    exact .inr ⟨a, w, rest, o, hp, howner, hne, (Host.Outcome.refused.inj h).symm⟩
  · obtain ⟨op, hdecode, rfl⟩ := exec_eq_refused h
    obtain ⟨hcode, q, rfl, rfl⟩ := decode_eq_encReserved hdecode
    exact .inl ⟨a, q, rest, hp, hcode, rfl⟩

/-- In a state of the invariant no step faults: taking a presentation keeps the invariant, and there no instruction
faults. -/
theorem State.Inv.safeStep {s : State} (h : s.Inv params) : SafeStep s := by
  intro f hstep
  rcases step_cases s with ⟨_, e⟩ | ⟨rest, _, e⟩ | ⟨a, w, rest, _, _, e⟩ | ⟨a, w, rest, t, _, hclaim, e⟩ <;>
    rw [e] at hstep
  · simp at hstep
  · simp at hstep
  · simp at hstep
  · obtain ⟨_, rfl⟩ := State.claim_eq_some.mp hclaim
    have ht : ({ s.withPending rest with owner := some a } : State).Inv params := h.of_reassembly_eq rfl
    exact ht.exec_ne_fault (decode w) f hstep

/-- Settles O54: the invariant rules out the faults; the refusals are the same two in every state. -/
theorem invariantStatesNeverFault : Obligations.InvariantStatesNeverFault := fun _ hinv =>
  ⟨hinv.safeStep, fun _ => step_eq_refused⟩

/-! ### What a delimiter leaves of the line before it -/

/-- Two states hold the same line: they agree on all that the receive path reads, which is `filled`, `desynced` and the
buffered cells (R195). The cells beyond and what the ports show may differ. -/
structure SameLine (s s' : State) : Prop where
  filled : s.filled = s'.filled
  desynced : s.desynced = s'.desynced
  cells : ∀ a, a < s.filled → s.buf.read a = s'.buf.read a

namespace SameLine

variable {s s' t u : State} {b : Byte} {ev : Event}

/-- Between lines there is no line to differ in. -/
theorem of_betweenLines (h : BetweenLines s) (h' : BetweenLines s') : SameLine s s' where
  filled := h.1.trans h'.1.symm
  desynced := h.2.trans h'.2.symm
  cells a ha := absurd (h.1 ▸ ha) (Nat.not_lt_zero a)

theorem emitRx (h : SameLine s s') (ev : Event) : SameLine (s.emitRx ev) (s'.emitRx ev) :=
  ⟨h.filled, h.desynced, h.cells⟩

theorem setDesynced (h : SameLine s s') : SameLine s.setDesynced s'.setDesynced :=
  ⟨h.filled, rfl, h.cells⟩

/-- The same byte appended to the same line: it goes to the same cell. -/
theorem append (h : SameLine s s') (b : Byte) : SameLine (s.append b) (s'.append b) where
  filled := congrArg (· + 1) h.filled
  desynced := h.desynced
  cells a ha := by
    rw [State.append_buf, State.append_buf, ← h.filled, Memory.read_write, Memory.read_write]
    split
    · rfl
    · next hne => exact h.cells a (Nat.lt_of_le_of_ne (Nat.le_of_lt_succ ha) hne)

/-- RX.CR gives the same event, and leaves both states between lines. -/
theorem exec_rxCr (h : SameLine s s') (he : exec .rxCr s = .next t) :
    ∃ t', exec .rxCr s' = .next t' ∧ t'.rxOut = t.rxOut ∧ SameLine t t' := by
  obtain ⟨t', he', hout⟩ : ∃ t', exec .rxCr s' = .next t' ∧ t'.rxOut = t.rxOut := by
    cases hd : s.desynced with
    | true =>
      cases (rxCr_of_desynced hd).symm.trans he
      exact ⟨_, rxCr_of_desynced (h.desynced ▸ hd), rfl⟩
    | false => exact lineResultDependsOnTheLineAlone s s' hd (h.desynced ▸ hd) h.filled h.cells t he
  have hends : ∀ v v', exec .rxCr v = .next v' → BetweenLines v' := fun v v' hv =>
    (everyDelimiterResynchronises params v).1 v' (.inl hv)
  exact ⟨t', he', hout, of_betweenLines (hends s t he) (hends s' t' he')⟩

/-- RX.BEL aborts both lines. -/
theorem exec_rxBel (he : exec .rxBel s = .next t) :
    ∃ t', exec .rxBel s' = .next t' ∧ t'.rxOut = t.rxOut ∧ SameLine t t' := by
  cases (bellAbortsTheLine.1 s).symm.trans he
  exact ⟨_, bellAbortsTheLine.1 s', rfl, of_betweenLines ⟨rfl, rfl⟩ ⟨rfl, rfl⟩⟩

/-- RX.other follows the same rule in both states. -/
theorem exec_rxOther (h : SameLine s s') (he : exec (.rxOther b) s = .next t) :
    ∃ t', exec (.rxOther b) s' = .next t' ∧ t'.rxOut = t.rxOut ∧ SameLine t t' := by
  rcases rxOther_cases params b s with ⟨hd, e⟩ | ⟨hd, hf, e⟩ | ⟨hd, hf, e⟩ | ⟨_, _, e⟩ <;> cases e.symm.trans he
  · exact ⟨_, rxOther_of_desynced (h.desynced ▸ hd), rfl, h.emitRx .none⟩
  · exact ⟨_, rxOther_of_room (h.desynced ▸ hd) (h.filled ▸ hf), rfl, (h.append b).emitRx .none⟩
  · exact ⟨_, rxOther_of_full (h.desynced ▸ hd) (h.filled ▸ hf), rfl, h.setDesynced.emitRx .none⟩

/-- A byte gives the same event, and leaves the same line. -/
theorem rxStep_next (h : SameLine s s') (hs : rxStep b s = .next (t, ev)) :
    ∃ t', rxStep b s' = .next (t', ev) ∧ SameLine t t' := by
  cases he : exec (decode (.rx b)) s with
  | fault f => simp [rxStep, he] at hs
  | refused r => simp [rxStep, he] at hs
  | next v =>
    cases (rxStep_of_next he).symm.trans hs
    have hexec : ∃ t', exec (decode (.rx b)) s' = .next t' ∧ t'.rxOut = t.rxOut ∧ SameLine t t' := by
      rcases decodeRx_cases b with ⟨_, e⟩ | ⟨_, e⟩ | ⟨_, _, e⟩ <;> rw [decode, e] at he ⊢
      · exact h.exec_rxCr he
      · exact exec_rxBel he
      · exact h.exec_rxOther he
    obtain ⟨t', he', hout, hsame⟩ := hexec
    exact ⟨t', hout ▸ rxStep_of_next he', hsame⟩

/-- A string of bytes gives the same events, and leaves the same line. -/
theorem rxFeed_next {bs : List Byte} {evs : List Event} (h : SameLine s s') (hf : rxFeed bs s = .next (u, evs)) :
    ∃ u', rxFeed bs s' = .next (u', evs) ∧ SameLine u u' := by
  induction bs generalizing s s' evs with
  | nil =>
    cases hf
    exact ⟨s', rfl, h⟩
  | cons b bs ih =>
    obtain ⟨t, ev, evs, hstep, hfeed, rfl⟩ := rxFeed_cons_cases hf
    obtain ⟨t', hstep', ht⟩ := h.rxStep_next hstep
    obtain ⟨u', hfeed', hu⟩ := ih ht hfeed
    exact ⟨u', rxFeed_cons_next hstep' hfeed', hu⟩

end SameLine

/-- Settles O37: two states between lines hold the same line, the empty one, and every byte keeps it the same. -/
theorem streamAfterADelimiterIsFresh : Obligations.StreamAfterADelimiterIsFresh := by
  intro s s' bs u evs hs hs' hf
  obtain ⟨u', hf', _⟩ := (SameLine.of_betweenLines hs hs').rxFeed_next hf
  exact ⟨u', hf'⟩

end Sys2Proof.Machine

/-! PROOFS. Reset and the idle block, and the line feed that a CR LF line ending leaves in the buffer
(70_reset_and_hazards.md). -/

namespace Sys2Proof.Machine

open Sys2Proof.Spec

/-- With nothing presented the block does nothing (R30, R250). -/
theorem step_of_idle {s : State} (h : s.pending = []) : step s = .next s := by
  simp [step, h]

/-- A presented reset is taken from the queue and resets the block (R270). -/
theorem step_of_reset {s : State} {rest : List HostOp} (h : s.pending = .reset :: rest) :
    step s = .next (s.withPending rest).resetBlock := by
  simp [step, h]

/-- Settles O9: the reset writes only the Reassembly State, the receive port and the host, and the step only the
queue. -/
theorem resetEventEmptiesTheLine : Obligations.ResetEventEmptiesTheLine :=
  ⟨fun _ _ h => ⟨_, step_of_reset h, rfl, rfl, rfl, rfl, rfl, rfl, rfl⟩, fun _ => step_of_idle⟩

/-- A line below the minimum, fed between lines and ended by CR, is discarded at the CR (R162). -/
theorem rxFeed_short_line {bs : List Byte} {s : State} (hs : BetweenLines s) (hbs : LineBytes bs)
    (hshort : bs.length < params.minValid) (hcap : bs.length ≤ params.capacity) :
    ∃ t, rxFeed (bs ++ [Config.cr]) s = .next (t, List.replicate bs.length .none ++ [.discard .tooShort]) ∧
      BetweenLines t := by
  obtain ⟨t, hfeed, hline, hd⟩ := rxFeed_of_room (buffered_nil hs) hs.2 hbs (by rw [hs.1]; omega)
  rw [List.nil_append] at hline
  have hcr : exec (decode (.rx Config.cr)) t = .next (t.endLine (.discard .tooShort)) :=
    (exec_rxCr t).trans (rxCr_of_short hd (hline.1 ▸ hshort))
  exact ⟨_, rxFeed_append hfeed (rxFeed_cons_next (rxStep_of_next hcr) rfl), rfl, rfl⟩

/-- A line feed is no command byte, so a line that begins with it is no data frame (R183). -/
theorem decodeLine_lineFeed (bs : List Byte) : decodeLine (0x0A :: bs) = .err .notDataFrame := rfl

/-- Settles O40: the line feed is a line byte like those that follow it (R161), so it counts towards the minimum, and
from there on it stands where the command byte should. -/
theorem lineFeedSpoilsTheNextLine : Obligations.LineFeedSpoilsTheNextLine := by
  intro s bs hs hbs hroom
  have hline : LineBytes (0x0A :: bs) := List.forall_mem_cons.mpr ⟨by decide, hbs⟩
  by_cases hshort : bs.length < 4
  · rw [if_pos hshort]
    exact rxFeed_short_line hs hline (Nat.succ_lt_succ hshort) hroom
  · rw [if_neg hshort]
    have hmin : params.minValid ≤ (0x0A :: bs).length := Nat.succ_le_succ (Nat.not_lt.mp hshort)
    obtain ⟨t, hfeed, ht⟩ := rxFeed_line hs hline hmin hroom
    rw [decodeLine_lineFeed] at hfeed
    exact ⟨t, hfeed, ht⟩

end Sys2Proof.Machine

/-! PROOFS. The words of the opcode table: which of them decode, and what placing one presents to the block
(notes/assumptions/5.md, 6.md). -/

namespace Sys2Proof.Machine

/-- A table word decodes exactly where it names a port value, and to that value's instruction. -/
theorem decodeTableWord_eq_some {nbits w : Nat} {i : Instr} :
    decodeTableWord nbits w = some i ↔ ∃ p, tableWord nbits w = some p ∧ decode p = i :=
  Option.map_eq_some_iff

/-- Placing a word presents its port value before everything else, in the host's name. -/
theorem withFetchWord_of_tableWord {nbits w : Nat} {p : PortWord} (s : State) (h : tableWord nbits w = some p) :
    s.withFetchWord nbits w = s.withPending (.port (s.owner.getD 0) p :: s.pending) := by
  simp only [State.withFetchWord, h]

/-- The agent in whose name a word is placed is one the block accepts: the host, or the first agent (R216 duty 2). -/
theorem owner_accepts_getD (o : Option Nat) : o = none ∨ o = some (o.getD 0) := by
  cases o with
  | none => exact .inl rfl
  | some a => exact .inr rfl

/-- Settles O7: the placed value is presented first and by an agent that is accepted, so the step takes it from the
queue again and runs it. -/
theorem fetchedTableWordRunsNext : Obligations.FetchedTableWordRunsNext := by
  intro s nbits w i hi
  obtain ⟨p, hp, rfl⟩ := decodeTableWord_eq_some.mp hi
  rw [withFetchWord_of_tableWord s hp]
  exact stepRunsTheDecodedInstruction _ _ p s.pending rfl (owner_accepts_getD s.owner)

end Sys2Proof.Machine
